-- ==== Sys2Proof/Word.lean ====
section
/-! DEFINITION. The words of popcount_engine: the widths of spec/00_scope.md rule R7 and the names of the four
variants (rule R2). Bits are numbered from 0, the least significant, and every value is unsigned (rule R9). -/

namespace Sys2Proof

/-- The operand and `work`: `W` = 32 bits, unsigned (R7). -/
abbrev Word := BitVec 32

/-- A LUT index, one byte of the operand: `LUT_IDX_W` = 8 bits (R7). -/
abbrev Byte := BitVec 8

/-- A LUT ROM entry: `LUT_ENTRY_W` = 4 bits, values 0..8 (R7, R51). -/
abbrev LutEntry := BitVec 4

/-- `acc`, `idx`, `result` and COUNT: `COUNT_W` = 6 bits (R7, R21). -/
abbrev Count := BitVec 6

/-- The VARIANT field and `var`: `VAR_W` = 2 bits (R7, R21). -/
abbrev VarCode := BitVec 2

/-- A command word in format CMD: `CMD_W` = 34 bits (R70). -/
abbrev CmdWord := BitVec 34

/-- A response word in format RESP: `RESP_W` = 8 bits (R72). -/
abbrev RespWord := BitVec 8

/-- The four variants (R2). -/
inductive Variant where
  | scan  -- bitwise_scan_popcount
  | kern  -- kernighan_popcount
  | lut   -- lut_popcount
  | par   -- parallel_reduction_popcount
deriving DecidableEq, Repr

end Sys2Proof
end

