-- ==== Sys2Proof/Config.lean ====
section
/-! DEFINITION. The implementation parameters of spec/00_scope.md rule R7 that a step rule compares with. The widths
are the types of Sys2Proof/Word.lean; the contents of the two constant tables of rule R38 (the LUT ROM and the PAR
stage table) stand in Sys2Proof/Machine/Tables.lean. STEP_CYCLES is OPEN and no rule reads it: the model has no number
for it (log entry 4). The spec leaves no other value free, so no opaque constant stands here. -/

namespace Sys2Proof

/-- `SCAN_ITERS` = 32 (R7, R131), at the width of the `idx` it is compared with. -/
def Config.scanIters : Count := 32#6

/-- `LUT_LOOKUPS` = 4 (R7, R171). -/
def Config.lutLookups : Count := 4#6

/-- `PAR_STAGES` = 5 (R7, R191). -/
def Config.parStages : Count := 5#6

/-- The greatest number of engine steps a command takes (R108). -/
def Config.maxEngineSteps : Nat := 33

/-- The greatest COUNT (R7, R72). -/
def Config.maxCount : Nat := 32

end Sys2Proof
end

