-- ==== Sys2Proof/Machine/Tables.lean ====
section
/-! DEFINITION. The two constant tables of spec/10_state.md rule R38. Nothing writes them and reset does not change
them, so they are constants and not state. -/

namespace Sys2Proof.Machine

/-- The LUT ROM's rows 0x0_ to 0x3_, as spec/20_memory.md rule R51 lists them. -/
def lutRows0 : List LutEntry :=
  [0, 1, 1, 2, 1, 2, 2, 3, 1, 2, 2, 3, 2, 3, 3, 4] ++
  [1, 2, 2, 3, 2, 3, 3, 4, 2, 3, 3, 4, 3, 4, 4, 5] ++
  [1, 2, 2, 3, 2, 3, 3, 4, 2, 3, 3, 4, 3, 4, 4, 5] ++
  [2, 3, 3, 4, 3, 4, 4, 5, 3, 4, 4, 5, 4, 5, 5, 6]

/-- Rows 0x4_ to 0x7_ (R51). -/
def lutRows4 : List LutEntry :=
  [1, 2, 2, 3, 2, 3, 3, 4, 2, 3, 3, 4, 3, 4, 4, 5] ++
  [2, 3, 3, 4, 3, 4, 4, 5, 3, 4, 4, 5, 4, 5, 5, 6] ++
  [2, 3, 3, 4, 3, 4, 4, 5, 3, 4, 4, 5, 4, 5, 5, 6] ++
  [3, 4, 4, 5, 4, 5, 5, 6, 4, 5, 5, 6, 5, 6, 6, 7]

/-- Rows 0x8_ to 0xB_ (R51). -/
def lutRows8 : List LutEntry :=
  [1, 2, 2, 3, 2, 3, 3, 4, 2, 3, 3, 4, 3, 4, 4, 5] ++
  [2, 3, 3, 4, 3, 4, 4, 5, 3, 4, 4, 5, 4, 5, 5, 6] ++
  [2, 3, 3, 4, 3, 4, 4, 5, 3, 4, 4, 5, 4, 5, 5, 6] ++
  [3, 4, 4, 5, 4, 5, 5, 6, 4, 5, 5, 6, 5, 6, 6, 7]

/-- Rows 0xC_ to 0xF_ (R51). -/
def lutRowsC : List LutEntry :=
  [2, 3, 3, 4, 3, 4, 4, 5, 3, 4, 4, 5, 4, 5, 5, 6] ++
  [3, 4, 4, 5, 4, 5, 5, 6, 4, 5, 5, 6, 5, 6, 6, 7] ++
  [3, 4, 4, 5, 4, 5, 5, 6, 4, 5, 5, 6, 5, 6, 6, 7] ++
  [4, 5, 5, 6, 5, 6, 6, 7, 5, 6, 6, 7, 6, 7, 7, 8]

/-- The LUT ROM: entry `b` of the list is `LUT[b]` (R51). -/
def lutRom : List LutEntry := lutRows0 ++ (lutRows4 ++ (lutRows8 ++ lutRowsC))

/-- 256 entries (R7 `LUT_ENTRIES`, R51). -/
theorem lutRom_length : lutRom.length = 256 := by
  have h0 : lutRows0.length = 64 := by decide
  have h4 : lutRows4.length = 64 := by decide
  have h8 : lutRows8.length = 64 := by decide
  have hC : lutRowsC.length = 64 := by decide
  simp only [lutRom, List.length_append, h0, h4, h8, hC]

/-- The PAR stage table: the shift and the mask of the row `idx` (spec/44_parallel_reduction.md rule R190). It has
five rows; another index names no row. -/
def parStage (idx : Count) : Option (Nat × Word) :=
  match idx.toNat with
  | 0 => some (1, 0x55555555#32)
  | 1 => some (2, 0x33333333#32)
  | 2 => some (4, 0x0F0F0F0F#32)
  | 3 => some (8, 0x00FF00FF#32)
  | 4 => some (16, 0x0000FFFF#32)
  | _ => none

end Sys2Proof.Machine
end

