-- ==== Sys2Proof/Machine/Operands.lean ====
section
/-! DEFINITION. The operand forms of the four algorithms and their arithmetic, with the widths of
spec/40_command_interface.md rule R117. -/

namespace Sys2Proof.Machine

/-- `zext_6(work[0])` (R10, R131). -/
def lowBit (w : Word) : Count := (w.extractLsb' 0 1).setWidth 6

/-- `work[7:0]` (R171). -/
def lowByte (w : Word) : Byte := w.extractLsb' 0 8

/-- `work[5:0]` (R191). -/
def lowCount (w : Word) : Count := w.extractLsb' 0 6

/-- `LutRead(b)` (R52): total, as every 8-bit index names one of the 256 entries. -/
def lutRead (b : Byte) : LutEntry :=
  lutRom[b.toNat]'(Nat.lt_of_lt_of_eq b.isLt lutRom_length.symm)

/-- `zext_6(LutRead(work[7:0]))` (R171). -/
def lutCount (w : Word) : Count := (lutRead (lowByte w)).setWidth 6

/-- `work AND (work - 1)`, the subtraction modulo 2^32 (R151). -/
def clearLowest (w : Word) : Word := w &&& (w - 1#32)

/-- `(work AND m) + ((work >> s) AND m)`, the addition modulo 2^32 (R191). -/
def laneSum (s : Nat) (m : Word) (w : Word) : Word := (w &&& m) + ((w >>> s) &&& m)

end Sys2Proof.Machine
end

