-- ==== Sys2Proof/Syntax.lean ====
section
/-! DEFINITION. The command set of popcount_engine, revision 1 (spec/00_scope.md rule R3): the four commands of
spec/opcode_table.json, each with its one operand (spec/30_encoding.md rules R71 and R73). -/

namespace Sys2Proof

/-- One command. The operand is the unsigned 32-bit value whose set bits are counted (R70, R73). -/
inductive Instr where
  /-- POPC.SCAN n (R133) -/
  | popcScan (n : Word)
  /-- POPC.KERN n (R153) -/
  | popcKern (n : Word)
  /-- POPC.LUT n (R173) -/
  | popcLut (n : Word)
  /-- POPC.PAR n (R193) -/
  | popcPar (n : Word)
deriving DecidableEq, Repr

/-- The variant a command selects (R71). -/
def Instr.variant : Instr → Variant
  | .popcScan _ => .scan
  | .popcKern _ => .kern
  | .popcLut _ => .lut
  | .popcPar _ => .par

/-- A command's OPERAND (R70). -/
def Instr.operand : Instr → Word
  | .popcScan n => n
  | .popcKern n => n
  | .popcLut n => n
  | .popcPar n => n

end Sys2Proof
end

