-- ==== Sys2Proof/WellFormed.lean ====
section
/-! DEFINITION. The checks on numbers that come from outside the block: an assembler's operand (spec/30_encoding.md
rule R77), a command word's number (R70, R76) and a response's COUNT (R72). Every value of `Instr` passes the first by
its type, as decoding is total (R74). -/

namespace Sys2Proof

/-- An operand numeral names a 32-bit unsigned value (R77: outside 0..2^32−1 it is an assembly error). -/
def operandOk (n : Nat) : Bool := decide (n < 2 ^ 32)

/-- A number fits the 34 lines of `cmd_data` (R70, R76). -/
def cmdNumberOk (w : Nat) : Bool := decide (w < 2 ^ 34)

/-- A COUNT this block can produce (R72: 33 to 63 never are). -/
def countOk (k : Count) : Bool := decide (k.toNat ≤ Config.maxCount)

/-- A command is well-formed when its operand is in range. -/
def Instr.wellFormed (i : Instr) : Bool := operandOk i.operand.toNat

end Sys2Proof
end

