-- ==== Sys2Proof/Decode.lean ====
section
/-! DEFINITION. Encoding and decoding of commands and responses (spec/30_encoding.md), and after the decoder the
encoder, both from the field tables of rules R70 to R75. -/

namespace Sys2Proof

/-- VARIANT, bits [33:32] of a command word (R70). -/
def cmdVariant (c : CmdWord) : VarCode := c.extractLsb' 32 2

/-- OPERAND, bits [31:0] of a command word (R70), taken as it stands (R73). -/
def cmdOperand (c : CmdWord) : Word := c.extractLsb' 0 32

/-- The variant a VARIANT code selects: all four values are used (R71, R74). -/
def variantOf (v : VarCode) : Variant :=
  if v = 0b00#2 then .scan
  else if v = 0b01#2 then .kern
  else if v = 0b10#2 then .lut
  else .par

/-- Decoding is total and goes by bits [33:32] alone (R74). -/
def decode (c : CmdWord) : Instr :=
  match variantOf (cmdVariant c) with
  | .scan => .popcScan (cmdOperand c)
  | .kern => .popcKern (cmdOperand c)
  | .lut => .popcLut (cmdOperand c)
  | .par => .popcPar (cmdOperand c)

/-- Why a number from outside the block is not one of its words. -/
inductive DecodeError where
  /-- The number has a bit above bit 33, and `cmd_data` has 34 lines (R70, R76). -/
  | wordTooWide
  /-- A response whose COUNT is 33 to 63, which cannot come from this block (R72). -/
  | countOutOfRange
deriving DecidableEq, Repr

/-- Decoding of a command word given as a number (R9): refused by name where it does not fit `cmd_data`. -/
def decodeNumber (w : Nat) : Except DecodeError Instr :=
  if cmdNumberOk w then .ok (decode (BitVec.ofNat 34 w)) else .error .wordTooWide

/-- The number given with its width in bits, as spec/opcode_table.json counts bits; bits above the width are 0. -/
def tableNumber (nbits w : Nat) : Nat := w % 2 ^ nbits

/-- The host's question: the instruction the decoder reads from an opcode-table word (log entry 13). -/
def decodeTableWord (nbits w : Nat) : Option Instr :=
  match decodeNumber (tableNumber nbits w) with
  | .ok i => some i
  | .error _ => none

/-- A response's fields as a host reads them: VARIANT bits [7:6], COUNT bits [5:0] (R72). A COUNT above 32 is
refused (R72 allows a host-side decoder to; 93_implementation_defined.md §1 says `refuse`). -/
def decodeResp (r : RespWord) : Except DecodeError (Variant × Count) :=
  if countOk (r.extractLsb' 0 6) then .ok (variantOf (r.extractLsb' 6 2), r.extractLsb' 0 6)
  else .error .countOutOfRange

/-- The VARIANT code of a variant (R71). -/
def variantCode : Variant → VarCode
  | .scan => 0b00#2
  | .kern => 0b01#2
  | .lut => 0b10#2
  | .par => 0b11#2

/-- A command word from its fields, `{VARIANT, OPERAND}` (R70). -/
def cmdWord (v : VarCode) (n : Word) : CmdWord := v ++ n

/-- The encoder (R70, R71). -/
def encode (i : Instr) : CmdWord := cmdWord (variantCode i.variant) i.operand

/-- A response word from its fields, `{VARIANT, COUNT}` (R72). -/
def respWord (v : VarCode) (k : Count) : RespWord := v ++ k

/-- The mask of every row of the opcode map (R75). -/
def cmdMask : CmdWord := 0x300000000#34

/-- The match value of a variant's row of the opcode map (R75). -/
def cmdMatch : Variant → CmdWord
  | .scan => 0x000000000#34
  | .kern => 0x100000000#34
  | .lut => 0x200000000#34
  | .par => 0x300000000#34

end Sys2Proof
end

