-- ==== Sys2Proof/Machine/State.lean ====
section
/-! DEFINITION. The state of popcount_engine (spec/10_state.md): the six elements of rule R21, the event history the
spec observes (rule R102), and the host's port signals at the coming clock edges (rules R32, R35). Plain data. -/

namespace Sys2Proof.Machine

/-- `phase` (R23): no other value exists, and its hardware encoding is not observable. -/
inductive Phase where
  | idle  -- no command in flight and no response pending
  | busy  -- a command accepted whose algorithm has not completed
  | done  -- `result` holds the count and the response waits to be taken
deriving DecidableEq, Repr

/-- An event of the history (R102). -/
inductive Event where
  /-- `Issue(c)`, recorded by ISSUE (R101) -/
  | issue (c : CmdWord)
  /-- `Resp(r)`, recorded by TAKE (R103) -/
  | resp (r : RespWord)
  /-- `Reset`, recorded by RESET (R230) -/
  | reset
deriving DecidableEq, Repr

/-- The input ports at one rising edge of `clk` (R32), and whether the engine is due at that edge (R35 case 4). -/
structure Edge where
  /-- `rst` -/
  rst : Bool
  /-- `cmd_valid` -/
  cmdValid : Bool
  /-- `cmd_data` -/
  cmdData : CmdWord
  /-- `resp_ready` -/
  respReady : Bool
  /-- The model's own bit: at this edge the engine takes its step if it is BUSY and nothing of higher priority
  happens. R35 says it "may"; STEP_CYCLES is OPEN (R7; log entry 4). -/
  engineTurn : Bool
deriving DecidableEq, Repr

/-- The machine. An element of R21 other than `phase` is "value or none", as R29 asks of a model: `none` is the
spec's "no value" (R39), not a value left out (log entry 1). -/
structure State where
  /-- `phase` (R23) -/
  phase : Phase
  /-- `var`, the VARIANT of the command in flight or answered (R24) -/
  var : Option VarCode
  /-- `work`, the working copy of the operand (R25) -/
  work : Option Word
  /-- `acc`, the running total (R26) -/
  acc : Option Count
  /-- `idx`, the iterations done (R27) -/
  idx : Option Count
  /-- `result`, the count of the last completed command (R28) -/
  result : Option Count
  /-- The event history, oldest first (R102). -/
  history : List Event
  /-- The host's signals at the coming edges, the next edge first; after the last one the host is quiet
  (log entry 3). -/
  edges : List Edge
deriving DecidableEq, Repr

/-- Why the machine stops. The hardware raises no fault (R210); the model has this internal one (R13). -/
inductive Fault where
  /-- A step or a TAKE read an element that holds no value, or a row the PAR stage table does not have (R29, R223).
  Raised through `need` alone. Safe: the machine stops where the spec gives no value, and no reachable state
  raises it. -/
  | readNoValue
deriving DecidableEq, Repr

/-- Why an instruction has no meaning. The model refuses nothing inside the command set (R13). -/
inductive Refusal where
  /-- An instruction not reached yet, rejected by its mnemonic in `exec`. No arm answers it. Safe. -/
  | notModelled (mnemonic : String)
deriving DecidableEq, Repr

/-- The state right after RESET (R39): IDLE, and no other element holds a value. The RESET that led here recorded
its event (R230; log entry 2), and no host drives the ports yet (log entry 3). -/
def State.reset : State where
  phase := .idle
  var := none
  work := none
  acc := none
  idx := none
  result := none
  history := [.reset]
  edges := []

end Sys2Proof.Machine
end

