-- ==== Sys2Proof/Machine/Ops.lean ====
section
/-! DEFINITION. The operations every meaning is written with: reading an element, ISSUE, TAKE and RESET
(spec/40_command_interface.md rules R101 and R103, spec/70_reset_and_hazards.md rule R230), and a variant's completion.
The block has no exception to take and none to return from (spec/60_exceptions.md rules R210, R213, R214) and no memory
to access (spec/20_memory.md rule R50), so no operation stands here for them. -/

namespace Sys2Proof.Machine

/-- Read an element: go on with its value, or fault where it holds none (R29, R223). -/
def need {α : Type} (x : Option α) (k : α → Host.Outcome State Fault Refusal) : Host.Outcome State Fault Refusal :=
  match x with
  | some v => k v
  | none => .fault .readNoValue

/-- Go on from a next state; a stop stays a stop. -/
def andThen (o : Host.Outcome State Fault Refusal) (k : State → Host.Outcome State Fault Refusal) :
    Host.Outcome State Fault Refusal :=
  match o with
  | .next s => k s
  | .fault r => .fault r
  | .refused r => .refused r

/-- What ISSUE writes when it is enabled (R101). `result` keeps what it held. -/
def issued (c : CmdWord) (s : State) : State :=
  { s with
    phase := .busy
    var := some (cmdVariant c)
    work := some (cmdOperand c)
    acc := some 0#6
    idx := some 0#6
    history := s.history ++ [.issue c] }

/-- ISSUE(c) (R101): enabled in IDLE. In BUSY and DONE the host waits and nothing is queued, dropped or overwritten
(R13, R101; log entry 6). -/
def issue (c : CmdWord) (s : State) : Host.Outcome State Fault Refusal :=
  match s.phase with
  | .idle => .next (issued c s)
  | .busy => .next s
  | .done => .next s

/-- What TAKE writes when it delivers the response `r` (R103). `var` and `result` keep what they held. -/
def taken (r : RespWord) (s : State) : State :=
  { s with
    phase := .idle
    history := s.history ++ [.resp r] }

/-- TAKE (R103): enabled in DONE, and delivers `{var, result}`. Elsewhere the host waits (log entry 6). -/
def take (s : State) : Host.Outcome State Fault Refusal :=
  match s.phase with
  | .idle => .next s
  | .busy => .next s
  | .done => need s.var fun v => need s.result fun k => .next (taken (respWord v k) s)

/-- RESET (R230): enabled in every phase; it discards whatever is in flight (R231). -/
def resetNow (s : State) : State :=
  { s with
    phase := .idle
    var := none
    work := none
    acc := none
    idx := none
    result := none
    history := s.history ++ [.reset] }

/-- Write `work` (R21). -/
def setWork (w : Word) (s : State) : State := { s with work := some w }

/-- Write `acc` (R21). -/
def setAcc (a : Count) (s : State) : State := { s with acc := some a }

/-- Write `idx` (R21). -/
def setIdx (i : Count) (s : State) : State := { s with idx := some i }

/-- A completion step: it writes `result` and sets `phase` to DONE, and nothing else (R104, R131, R151, R171, R191). -/
def complete (k : Count) (s : State) : State :=
  { s with
    phase := .done
    result := some k }

/-- The ports with nothing driven: the host is quiet, and the engine is due. -/
def quietEdge : Edge where
  rst := false
  cmdValid := false
  cmdData := 0#34
  respReady := false
  engineTurn := true

/-- The ports with the command word `c` offered. -/
def offerEdge (c : CmdWord) : Edge := { quietEdge with cmdValid := true, cmdData := c }

/-- The ports with the host ready to take a response. -/
def takeEdge : Edge := { quietEdge with respReady := true }

/-- The ports with reset asserted. -/
def resetEdge : Edge := { quietEdge with rst := true }

/-- The signals at the coming edge; the host is quiet once its list is used up (log entries 3 and 5). -/
def edgeNow (s : State) : Edge := s.edges.headD quietEdge

/-- The state with the coming edge's signals used up. -/
def dropEdge (s : State) : State := { s with edges := s.edges.tail }

/-- The state in which the coming edge accepts the command word `c`: the engine IDLE and the host offering `c`. -/
def placeCommand (c : CmdWord) (s : State) : State :=
  { s with
    phase := .idle
    edges := offerEdge c :: s.edges }

end Sys2Proof.Machine
end

