-- ==== Sys2Proof/Machine/Kern.lean ====
section
/-! DEFINITION. POPC.KERN (spec/42_kernighan.md): the command, and the engine step it then takes. -/

namespace Sys2Proof.Machine

/-- POPC.KERN n (R153): the command is issued (R101). The engine then runs it by `kernStep` (R104; log entry 7). -/
def execKern (n : Word) (s : State) : Host.Outcome State Fault Refusal :=
  issue (cmdWord 0b01#2 n) s

/-- KERN step (R151). It neither reads nor writes `idx` (R150; log entry 18). -/
def kernStep (s : State) : Host.Outcome State Fault Refusal :=
  need s.work fun w =>
    if w = 0#32 then
      need s.acc fun a => .next (complete a s)
    else
      need s.acc fun a => .next (setAcc (a + 1#6) (setWork (clearLowest w) s))

end Sys2Proof.Machine
end

