-- ==== Sys2Proof/Machine/Lut.lean ====
section
/-! DEFINITION. POPC.LUT (spec/43_lut.md): the command, and the engine step it then takes. -/

namespace Sys2Proof.Machine

/-- POPC.LUT n (R173): the command is issued (R101), which zeroes the accumulator (R174). The engine then runs it by
`lutStep` (R104; log entry 7). -/
def execLut (n : Word) (s : State) : Host.Outcome State Fault Refusal :=
  issue (cmdWord 0b10#2 n) s

/-- LUT step (R171): one lookup and one shift an iteration, byte 0 first (R170). -/
def lutStep (s : State) : Host.Outcome State Fault Refusal :=
  need s.idx fun i =>
    if i = Config.lutLookups then
      need s.acc fun a => .next (complete a s)
    else
      need s.acc fun a => need s.work fun w =>
        .next (setIdx (i + 1#6) (setWork (w >>> 8) (setAcc (a + lutCount w) s)))

end Sys2Proof.Machine
end

