-- ==== Sys2Proof/Machine/Par.lean ====
section
/-! DEFINITION. POPC.PAR (spec/44_parallel_reduction.md): the command, and the engine step it then takes. -/

namespace Sys2Proof.Machine

/-- POPC.PAR n (R193): the command is issued (R101). The engine then runs it by `parStep` (R104; log entry 7). -/
def execPar (n : Word) (s : State) : Host.Outcome State Fault Refusal :=
  issue (cmdWord 0b11#2 n) s

/-- PAR step (R191). It neither reads nor writes `acc`. An `idx` above 5 names no row of the stage table, so the
read of the row faults (log entry 8). -/
def parStep (s : State) : Host.Outcome State Fault Refusal :=
  need s.idx fun i =>
    if i = Config.parStages then
      need s.work fun w => .next (complete (lowCount w) s)
    else
      need s.work fun w => need (parStage i) fun row =>
        .next (setIdx (i + 1#6) (setWork (laneSum row.1 row.2 w) s))

end Sys2Proof.Machine
end

