-- ==== Sys2Proof/Machine/Scan.lean ====
section
/-! DEFINITION. POPC.SCAN (spec/41_bitwise_scan.md): the command, and the engine step it then takes. -/

namespace Sys2Proof.Machine

/-- POPC.SCAN n (R133): the command is issued (R101). The engine then runs it by `scanStep`, one iteration a step
(R104; log entry 7). -/
def execScan (n : Word) (s : State) : Host.Outcome State Fault Refusal :=
  issue (cmdWord 0b00#2 n) s

/-- SCAN step (R131). -/
def scanStep (s : State) : Host.Outcome State Fault Refusal :=
  need s.idx fun i =>
    if i = Config.scanIters then
      need s.acc fun a => .next (complete a s)
    else
      need s.acc fun a => need s.work fun w =>
        .next (setIdx (i + 1#6) (setWork (w >>> 1) (setAcc (a + lowBit w) s)))

end Sys2Proof.Machine
end

