-- ==== Sys2Proof/Machine/Engine.lean ====
section
/-! DEFINITION. STEP, the engine's action (spec/40_command_interface.md rule R104). -/

namespace Sys2Proof.Machine

/-- One step of the variant that `var` names (R104). -/
def variantStep (v : Variant) (s : State) : Host.Outcome State Fault Refusal :=
  match v with
  | .scan => scanStep s
  | .kern => kernStep s
  | .lut => lutStep s
  | .par => parStep s

/-- STEP (R104): enabled in BUSY. In IDLE and DONE the engine waits (R13, R238; log entry 6). -/
def engineStep (s : State) : Host.Outcome State Fault Refusal :=
  match s.phase with
  | .idle => .next s
  | .busy => need s.var fun v => variantStep (variantOf v) s
  | .done => .next s

/-- `k` engine steps in a row, with no host action between them. -/
def engineSteps : Nat → State → Host.Outcome State Fault Refusal
  | 0, s => .next s
  | k + 1, s => andThen (engineStep s) (engineSteps k)

end Sys2Proof.Machine
end

