-- ==== Sys2Proof/Machine/Dispatch.lean ====
section
/-! DEFINITION. Which meaning each command has. -/

namespace Sys2Proof.Machine

def exec (i : Instr) (s : State) : Host.Outcome State Fault Refusal :=
  match i with
  | .popcScan n => Sys2Proof.Machine.execScan n s
  | .popcKern n => Sys2Proof.Machine.execKern n s
  | .popcLut n => Sys2Proof.Machine.execLut n s
  | .popcPar n => Sys2Proof.Machine.execPar n s

end Sys2Proof.Machine
end

