-- ==== Sys2Proof/Machine/Flags.lean ====
section
/-! DEFINITION. The engine has no flags, condition codes or predicates, and no command sets one
(spec/10_state.md rule R30). The only status a host observes is the handshake (rule R31): the output ports of rules R33
and R34, functions of `rst`, `phase` and, for `resp_data`, of `var` and `result`. -/

namespace Sys2Proof.Machine

/-- `cmd_ready` (R33). -/
def cmdReady (rst : Bool) (s : State) : Bool := s.phase == .idle && !rst

/-- `resp_valid` (R34). -/
def respValid (rst : Bool) (s : State) : Bool := s.phase == .done && !rst

/-- `resp_data` (R34): `{var, result}` while `resp_valid` = 1. `none`: a model observes nothing on it (R34, R237;
log entry 12). -/
def respData (rst : Bool) (s : State) : Option RespWord :=
  if respValid rst s then
    match s.var, s.result with
    | some v, some k => some (respWord v k)
    | _, _ => none
  else none

end Sys2Proof.Machine
end

