-- ==== Sys2Proof/Machine/Clock.lean ====
section
/-! DEFINITION. One rising edge of `clk` (spec/10_state.md rule R35), the four actions of
spec/40_command_interface.md rule R100, and a whole command. -/

namespace Sys2Proof.Machine

/-- The actions (R100). -/
inductive Action where
  | issue (c : CmdWord)
  | take
  | reset
  | step
deriving DecidableEq, Repr

/-- Which actions are enabled (R101, R103, R104, R230; spec/95_test_vectors.md §2.6). -/
def enabled (a : Action) (s : State) : Bool :=
  match a with
  | .issue _ => s.phase == .idle
  | .take => s.phase == .done
  | .reset => true
  | .step => s.phase == .busy

/-- An action's effect. ISSUE runs the command its word decodes to. -/
def perform (a : Action) (s : State) : Host.Outcome State Fault Refusal :=
  match a with
  | .issue c => exec (decode c) s
  | .take => take s
  | .reset => .next (resetNow s)
  | .step => engineStep s

/-- What happens at an edge with the signals `e`, in the order of R35: RESET; else ISSUE; else TAKE; else, if the
engine is due, its STEP. `none`: the edge changes nothing. -/
def actionAt (e : Edge) (s : State) : Option Action :=
  if e.rst then some .reset
  else if e.cmdValid && cmdReady e.rst s then some (.issue e.cmdData)
  else if respValid e.rst s && e.respReady then some .take
  else if s.phase == .busy && e.engineTurn then some .step
  else none

/-- One rising edge with the signals `e` (R35). -/
def atEdge (e : Edge) (s : State) : Host.Outcome State Fault Refusal :=
  match actionAt e s with
  | some a => perform a s
  | none => .next s

/-- The coming rising edge: its signals are used up, and what they cause happens. -/
def clockStep (s : State) : Host.Outcome State Fault Refusal := atEdge (edgeNow s) (dropEdge s)

/-- A whole command, as R133, R153, R173 and R193 write it: ISSUE, then engine steps until DONE (33 are enough, R108,
and none is enabled in DONE), then TAKE. -/
def wholeCommand (i : Instr) (s : State) : Host.Outcome State Fault Refusal :=
  andThen (exec i s) fun t => andThen (engineSteps Config.maxEngineSteps t) take

end Sys2Proof.Machine
end

