-- ==== Sys2Proof/Machine/Step.lean ====
section
/-! DEFINITION. One step of the machine is one rising edge of `clk` (spec/10_state.md rule R35). The engine fetches no
instruction (rule R22); a command comes to it on `cmd_data`. -/

namespace Sys2Proof.Machine

/-- One step: the coming rising edge (log entry 19). -/
def step (s : State) : Host.Outcome State Fault Refusal := Sys2Proof.Machine.clockStep s

/-- `s` with the host offering the command word `w` at the coming edge and the engine IDLE, so that the very next
step accepts and runs it (log entry 9). -/
def State.withFetchWord (s : State) (nbits w : Nat) : State :=
  Sys2Proof.Machine.placeCommand (BitVec.ofNat 34 (Sys2Proof.tableNumber nbits w)) s

end Sys2Proof.Machine
end

