-- ==== Sys2Proof/Machine/HostProgram.lean ====
section
/-! DEFINITION. The host's side of the ports as spec/30_encoding.md rule R77 writes it: the host actions of a program
and the port signals they drive, edge by edge. It is not part of the block: `step` reads port signals only, and this
file says which signals a host program drives. -/

namespace Sys2Proof.Machine

/-- A line of a host program (R77). Only `popc` has an encoding. -/
inductive HostAction where
  /-- `popc.scan`, `popc.kern`, `popc.lut`, `popc.par`: issue the command -/
  | popc (i : Instr)
  /-- `take`: take the pending response -/
  | take
  /-- `reset`: assert reset for one edge -/
  | reset
  /-- `wait`: let the engine step until `resp_valid` = 1 -/
  | wait
deriving DecidableEq, Repr

/-- A host part-way through its program: the lines still to do, and a command it offers that is not accepted yet
(a command offered while `cmd_ready` = 0 simply waits, R236). -/
structure HostProgram where
  todo : List HostAction
  offer : Option CmdWord
deriving DecidableEq, Repr

/-- The host reaches a `popc` line when it offers nothing: from then on it offers that command. -/
def hostOffers (p : HostProgram) : HostProgram :=
  match p.offer, p.todo with
  | none, .popc i :: rest => { todo := rest, offer := some (encode i) }
  | _, _ => p

/-- Whether the offer is accepted at the coming edge: the host offers, and `cmd_ready` = 1 as it asserts no reset
while its offer can be accepted (R33, R35). -/
def offerAccepted (p : HostProgram) (s : State) : Bool := p.offer.isSome && cmdReady false s

/-- The signals the host drives at the coming edge (R32, R77): a command that can be accepted is issued before the
next line's signals; one that cannot is offered beside them. -/
def hostSignals (p : HostProgram) (s : State) : Edge :=
  { rst := p.todo.head? == some .reset && !offerAccepted p s
    cmdValid := p.offer.isSome
    cmdData := p.offer.getD 0#34
    respReady := p.todo.head? == some .take && !offerAccepted p s
    engineTurn := true }

/-- What the host has left to do after that edge: an accepted offer is withdrawn; `reset` takes one edge, `take` ends
when the response is delivered, `wait` when `resp_valid` = 1, and a `popc` line waits while an earlier offer stands. -/
def hostAfter (p : HostProgram) (s : State) : HostProgram :=
  if offerAccepted p s then { p with offer := none }
  else
    match p.todo with
    | .reset :: rest => { p with todo := rest }
    | .take :: rest => if respValid false s then { p with todo := rest } else p
    | .wait :: rest => if respValid false s then { p with todo := rest } else p
    | .popc _ :: _ => p
    | [] => p

/-- `k` edges of the host running its program against the engine. -/
def runHost : Nat → HostProgram → State → Host.Outcome State Fault Refusal
  | 0, _, s => .next s
  | k + 1, p, s =>
    let q := hostOffers p
    andThen (atEdge (hostSignals q s) s) (runHost k (hostAfter q s))

/-- A run has ended when the host has nothing left to do and the engine is IDLE (R118). -/
def runEnded (p : HostProgram) (s : State) : Bool :=
  p.todo.isEmpty && p.offer.isNone && s.phase == .idle

end Sys2Proof.Machine
end

