-- ==== Sys2Proof/Machine/Assembler.lean ====
section
/-! DEFINITION. The assembler syntax of spec/30_encoding.md rule R77, one line at a time, as characters. There are no
pseudo-instructions (rule R78). -/

namespace Sys2Proof.Machine

/-- Why a line is not one of R77's. -/
inductive AsmError where
  /-- The first word names no command and no host action (R78: there are no other names). -/
  | unknownWord
  /-- The operand is no decimal numeral and no `0x` with 1 to 8 digits. -/
  | badNumeral
  /-- The operand is outside 0..2^32−1: an assembly error, not a command. -/
  | operandOutOfRange
  /-- Words are missing after a command, or left over. -/
  | wrongWords
deriving DecidableEq, Repr

/-- The words of a line, between blanks, up to a comment (R77: `#` to the end of the line). -/
def asmWords (line : List Char) : List (List Char) :=
  let grouped := (line.takeWhile (· != '#')).foldr
    (fun c ws => if c == ' ' || c == '\t' then [] :: ws else
      match ws with
      | [] => [[c]]
      | w :: rest => (c :: w) :: rest) [[]]
  grouped.filter (! ·.isEmpty)

/-- A digit's value in the base given. -/
def digitValue (base : Nat) (c : Char) : Option Nat :=
  let d :=
    if '0' ≤ c ∧ c ≤ '9' then c.toNat - '0'.toNat
    else if 'a' ≤ c ∧ c ≤ 'f' then c.toNat - 'a'.toNat + 10
    else if 'A' ≤ c ∧ c ≤ 'F' then c.toNat - 'A'.toNat + 10
    else base
  if d < base then some d else none

/-- The number a row of digits writes, most significant digit first (R9). -/
def digitsValue (base : Nat) : Nat → List Char → Option Nat
  | acc, [] => some acc
  | acc, c :: rest =>
    match digitValue base c with
    | some d => digitsValue base (acc * base + d) rest
    | none => none

/-- An operand numeral (R77): decimal, or `0x` followed by 1 to 8 digits. -/
def numeralValue (w : List Char) : Option Nat :=
  match w with
  | [] => none
  | '0' :: 'x' :: ds => if ds.isEmpty || 8 < ds.length then none else digitsValue 16 0 ds
  | ds => digitsValue 10 0 ds

/-- The variant a mnemonic names; upper and lower case mean the same (R77). -/
def mnemonicVariant (w : List Char) : Option Variant :=
  let m := w.map Char.toLower
  if m = ['p', 'o', 'p', 'c', '.', 's', 'c', 'a', 'n'] then some .scan
  else if m = ['p', 'o', 'p', 'c', '.', 'k', 'e', 'r', 'n'] then some .kern
  else if m = ['p', 'o', 'p', 'c', '.', 'l', 'u', 't'] then some .lut
  else if m = ['p', 'o', 'p', 'c', '.', 'p', 'a', 'r'] then some .par
  else none

/-- The host action a word names that has no operand (R77). -/
def wordAction (w : List Char) : Option HostAction :=
  if w = ['t', 'a', 'k', 'e'] then some .take
  else if w = ['r', 'e', 's', 'e', 't'] then some .reset
  else if w = ['w', 'a', 'i', 't'] then some .wait
  else none

/-- The command of a variant on an operand (R71). -/
def commandOf (v : Variant) (n : Word) : Instr :=
  match v with
  | .scan => .popcScan n
  | .kern => .popcKern n
  | .lut => .popcLut n
  | .par => .popcPar n

/-- A command line's action: its operand must be a 32-bit value (R77). -/
def assembleCommand (v : Variant) (n : Nat) : Except AsmError HostAction :=
  if operandOk n then .ok (.popc (commandOf v (BitVec.ofNat 32 n))) else .error .operandOutOfRange

/-- One line (R77); an empty or comment line has no action. The words `-> …` after a `take` only state the response
expected, and no action comes from them (log entry 16). -/
def assembleLine (line : List Char) : Except AsmError (Option HostAction) :=
  match asmWords line with
  | [] => .ok none
  | w :: rest =>
    match wordAction w, mnemonicVariant w, rest with
    | some a, _, [] => .ok (some a)
    | some .take, _, ['-', '>'] :: _ => .ok (some .take)
    | none, some v, [x] =>
      match numeralValue x with
      | none => .error .badNumeral
      | some n => (assembleCommand v n).map some
    | none, none, _ => .error .unknownWord
    | _, _, _ => .error .wrongWords

end Sys2Proof.Machine
end

