-- ==== Sys2Proof/Safety.lean ====
section
/-! DEFINITION. The terms claims are stated in: the reference function POPCOUNT (spec/00_scope.md rule R12), runs of
the machine, the history a right engine leaves (spec/40_command_interface.md rule R110, spec/20_memory.md rule R59),
and the invariant of every reachable state (spec/10_state.md rule R37 and the algorithms' own rules R132, R152, R172
and R192). A safe run is one that meets `Inv` throughout. No step of the machine uses any of it. -/

namespace Sys2Proof

/-- The number of 1s among the `len` bits of `n` from bit `lo` up. -/
def bitCount {w : Nat} (n : BitVec w) (lo len : Nat) : Nat :=
  ((List.range len).map fun i => (n.getLsbD (lo + i)).toNat).sum

/-- `POPCOUNT(n) = n[0] + n[1] + … + n[31]` (R12). -/
def popcount (n : Word) : Nat := bitCount n 0 32

/-- The lane of width `len` at position `p` of `w`, as an unsigned number (R190). -/
def lane (w : Word) (len p : Nat) : Nat := (w.extractLsb' (p * len) len).toNat

/-- `STEPS(VARIANT, n)` (R106). -/
def stepsNeeded (v : Variant) (n : Word) : Nat :=
  match v with
  | .scan => 33
  | .kern => popcount n + 1
  | .lut => 5
  | .par => 6

/-- `LUT[n[7:0]] + … + LUT[n[8j−1:8j−8]]` (R172). -/
def lutSum (n : Word) (j : Nat) : Nat :=
  ((List.range j).map fun k => (Machine.lutRead (n.extractLsb' (8 * k) 8)).toNat).sum

/-- The response that answers a command: its VARIANT and the count of its OPERAND (R110). -/
def answerWord (c : CmdWord) : RespWord :=
  respWord (cmdVariant c) (BitVec.ofNat 6 (popcount (cmdOperand c)))

namespace Machine

/-- The command accepted and neither answered nor discarded after one more event. -/
def pendingAfter (_ : Option CmdWord) : Event → Option CmdWord
  | .issue c => some c
  | .resp _ => none
  | .reset => none

/-- The command in flight, or whose response is pending, after a history. -/
def pending (h : List Event) : Option CmdWord := h.foldl pendingAfter none

/-- Every Issue comes with no command pending, and every Resp answers the command pending then, once (R59, R110);
`p` is the command pending before the first event. -/
def historyOk : Option CmdWord → List Event → Bool
  | _, [] => true
  | none, .issue c :: rest => historyOk (some c) rest
  | some _, .issue _ :: _ => false
  | none, .resp _ :: _ => false
  | some c, .resp r :: rest => (r == answerWord c) && historyOk none rest
  | _, .reset :: rest => historyOk none rest

/-- The elements after ISSUE with operand `n` and `j` SCAN iterations (R132). -/
def scanAt (n : Word) (j : Nat) (s : State) : Prop :=
  s.idx = some (BitVec.ofNat 6 j) ∧ s.work = some (n >>> j) ∧ s.acc = some (BitVec.ofNat 6 (bitCount n 0 j))

/-- The elements after ISSUE with operand `n` and `j` KERN iterations (R150, R152). -/
def kernAt (n : Word) (j : Nat) (s : State) : Prop :=
  s.idx = some 0#6 ∧ s.acc = some (BitVec.ofNat 6 j) ∧ ∃ w, s.work = some w ∧ j + popcount w = popcount n

/-- The elements after ISSUE with operand `n` and `j` LUT iterations (R172). -/
def lutAt (n : Word) (j : Nat) (s : State) : Prop :=
  s.idx = some (BitVec.ofNat 6 j) ∧ s.work = some (n >>> (8 * j)) ∧ s.acc = some (BitVec.ofNat 6 (lutSum n j))

/-- Every lane of `w` of width 2^j counts the set bits of its own place in `n` (R192). -/
def lanesCount (n : Word) (j : Nat) (w : Word) : Prop :=
  ∀ p, p < 32 / 2 ^ j → lane w (2 ^ j) p = bitCount n (p * 2 ^ j) (2 ^ j)

/-- The elements after ISSUE with operand `n` and `j` PAR stages (R26, R192). -/
def parAt (n : Word) (j : Nat) (s : State) : Prop :=
  s.idx = some (BitVec.ofNat 6 j) ∧ s.acc = some 0#6 ∧ ∃ w, s.work = some w ∧ lanesCount n j w

/-- How far a command of variant `v` on `n` has got, at some point of its iterations. -/
def inFlight (v : Variant) (n : Word) (s : State) : Prop :=
  match v with
  | .scan => ∃ j, j ≤ 32 ∧ scanAt n j s
  | .kern => ∃ j, kernAt n j s
  | .lut => ∃ j, j ≤ 4 ∧ lutAt n j s
  | .par => ∃ j, j ≤ 5 ∧ parAt n j s

/-- The elements fit the command `p` that the history says is pending, in each phase (R23, R37). -/
def fits (s : State) (p : Option CmdWord) : Prop :=
  match s.phase with
  | .idle => p = none
  | .busy => ∃ c, p = some c ∧ s.var = some (cmdVariant c) ∧ inFlight (variantOf (cmdVariant c)) (cmdOperand c) s
  | .done => ∃ c, p = some c ∧ s.var = some (cmdVariant c) ∧
      s.result = some (BitVec.ofNat 6 (popcount (cmdOperand c)))

/-- The invariant of every reachable state. -/
def Inv (s : State) : Prop := historyOk none s.history = true ∧ fits s (pending s.history)

/-- `k` steps in a row. -/
def runSteps : Nat → State → Host.Outcome State Fault Refusal
  | 0, s => .next s
  | k + 1, s => andThen (step s) (runSteps k)

/-- A list of actions performed in turn (R100); one that is not enabled changes nothing. -/
def runActions (act : Action → State → Host.Outcome State Fault Refusal) :
    List Action → State → Host.Outcome State Fault Refusal
  | [], s => .next s
  | a :: rest, s => andThen (act a s) (runActions act rest)

/-- The abstraction R107 allows: one STEP goes straight from BUSY to DONE with `result <- POPCOUNT(work)`. -/
def abstractPerform (a : Action) (s : State) : Host.Outcome State Fault Refusal :=
  match a, s.phase with
  | .step, .busy => need s.work fun w => .next (complete (BitVec.ofNat 6 (popcount w)) s)
  | .step, .idle => .next s
  | .step, .done => .next s
  | .issue c, _ => perform (.issue c) s
  | .take, _ => perform .take s
  | .reset, _ => perform .reset s

/-- An outcome's next state, for tests. -/
def nextOf (o : Host.Outcome State Fault Refusal) : Option State :=
  match o with
  | .next s => some s
  | .fault _ => none
  | .refused _ => none

end Machine
end Sys2Proof
end

