-- ==== Sys2Proof/Certificates/Slice0/Obligations.lean ====
section
/-! DEFINITION. The statements for the provers, each from the rules of spec/ its docstring names. A count is stated as
a natural number (`toNat`), so that no wrap at 6 bits can hide. `edgeNow s` is the port signals of the coming edge and
`dropEdge s` the state with them used up. -/

open Sys2Proof Sys2Proof.Machine

/-! Reset and boot -/

/-- 10_state.md §5 (R39): the state after RESET, and that RESET makes it of every state, the unspecified power-up state
among them (70_reset_and_hazards.md §2). The one event in its history is the model's reading (log entry 2). -/
def Obligations.ResetLeavesOnlyIdle : Prop :=
  (∀ s : State, resetNow s = { State.reset with history := s.history ++ [.reset], edges := s.edges }) ∧
  State.reset.phase = .idle ∧ State.reset.var = none ∧ State.reset.work = none ∧ State.reset.acc = none ∧
  State.reset.idx = none ∧ State.reset.result = none ∧
  cmdReady false State.reset = true ∧ (∀ rst, respValid rst State.reset = false)

/-- R230: an edge with `rst` = 1, in every phase. -/
def Obligations.ResetAtAnyEdgeInAnyPhase : Prop :=
  ∀ s : State, (edgeNow s).rst = true →
    step s = .next
      { phase := .idle, var := none, work := none, acc := none, idx := none, result := none,
        history := s.history ++ [.reset], edges := s.edges.tail }

/-- 70_reset_and_hazards.md §1 (R232): while `rst` = 1 no port is ready or valid, and a further edge of reset leaves
every element as one edge did. That each such edge records its own Reset event is the model's reading (log entry 2). -/
def Obligations.HoldingResetChangesNothingMore : Prop :=
  (∀ s : State, cmdReady true s = false ∧ respValid true s = false ∧ respData true s = none) ∧
  ∀ (s : State) (k : Nat), (∀ j, j ≤ k → (s.edges.getD j quietEdge).rst = true) →
    runSteps (k + 1) s = .next
      { phase := .idle, var := none, work := none, acc := none, idx := none, result := none,
        history := s.history ++ List.replicate (k + 1) .reset, edges := s.edges.drop (k + 1) }

/-- 70_reset_and_hazards.md §1 and §2 (R231, R234): from any state whatever, one edge of reset, and then any host:
every later step has a next state, and the responses from then on answer commands issued after the reset, each once and
in order (20_memory.md §6). -/
def Obligations.AfterAnyResetEveryRunAnswersRightly : Prop :=
  ∀ (s : State) (k : Nat), (edgeNow s).rst = true →
    ∃ t u new, step s = .next t ∧ runSteps k t = .next u ∧
      u.history = t.history ++ new ∧ historyOk none new = true

/-! Ports and edges -/

/-- R33, R34. -/
def Obligations.HandshakePortsFollowPhase : Prop :=
  ∀ (rst : Bool) (s : State),
    (cmdReady rst s = true ↔ s.phase = .idle ∧ rst = false) ∧
    (respValid rst s = true ↔ s.phase = .done ∧ rst = false) ∧
    (∀ v k, respValid rst s = true → s.var = some v → s.result = some k → respData rst s = some (v ++ k)) ∧
    (respValid rst s = false → respData rst s = none)

/-- 10_state.md §3 (R36): no output port depends on `work`, `acc` or `idx`, and in BUSY none on any element but
`phase`. -/
def Obligations.PortsHideTheDatapath : Prop :=
  ∀ (rst : Bool) (s s' : State), s.phase = s'.phase →
    (s.phase = .done → s.var = s'.var ∧ s.result = s'.result) →
    cmdReady rst s = cmdReady rst s' ∧ respValid rst s = respValid rst s' ∧ respData rst s = respData rst s'

/-- 10_state.md §2 (R35) and 60_exceptions.md §1 (R212): at an edge RESET comes first, then ISSUE, then TAKE, then the
engine's step where the engine is due, and otherwise nothing changes. -/
def Obligations.EdgePriority : Prop :=
  ∀ s : State,
    ((edgeNow s).rst = true → step s = .next (resetNow (dropEdge s))) ∧
    ((edgeNow s).rst = false → (edgeNow s).cmdValid = true → s.phase = .idle →
      step s = exec (decode (edgeNow s).cmdData) (dropEdge s)) ∧
    ((edgeNow s).rst = false → (edgeNow s).respReady = true → s.phase = .done → step s = take (dropEdge s)) ∧
    ((edgeNow s).rst = false → (edgeNow s).engineTurn = true → s.phase = .busy →
      step s = engineStep (dropEdge s)) ∧
    ((edgeNow s).rst = false → ((edgeNow s).cmdValid = true → s.phase ≠ .idle) →
      ((edgeNow s).respReady = true → s.phase ≠ .done) → ((edgeNow s).engineTurn = true → s.phase ≠ .busy) →
      step s = .next (dropEdge s))

/-- 10_state.md §2 (R35 case 2): the command on the port runs. The engine fetches nothing (R22): the word on
`cmd_data` is the instruction, and its edge is used up. -/
def Obligations.StepRunsTheDecodedCommand : Prop :=
  ∀ (s : State) (i : Instr) (e : Edge) (es : List Edge),
    s.edges = e :: es → s.phase = .idle → e.rst = false → e.cmdValid = true → decode e.cmdData = i →
    step s = exec i { s with edges := es }

/-- R221: an offer, or a change or withdrawal of one, while `cmd_ready` = 0, and `resp_ready` while `resp_valid` = 0,
have no effect. -/
def Obligations.UnacceptedOffersHaveNoEffect : Prop :=
  ∀ (s : State) (e e' : Edge), e.rst = e'.rst → e.engineTurn = e'.engineTurn →
    (cmdReady e.rst s = true → e.cmdValid = e'.cmdValid ∧ (e.cmdValid = true → e.cmdData = e'.cmdData)) →
    (respValid e.rst s = true → e.respReady = e'.respReady) →
    ∀ es, step { s with edges := e :: es } = step { s with edges := e' :: es }

/-- 40_command_interface.md §1 (R100): each edge is one enabled action or changes nothing, and any enabled action may
be the next one. -/
def Obligations.AnyEnabledActionMayComeNext : Prop :=
  (∀ s : State, step s = .next (dropEdge s) ∨ ∃ a, enabled a s = true ∧ step s = perform a (dropEdge s)) ∧
  (∀ (s : State) (a : Action), enabled a s = true →
    ∃ e, ∀ es, step { s with edges := e :: es } = perform a { s with edges := es })

/-- 00_scope.md §6 (R13): an action that is not enabled waits; so does a command executed outside IDLE. That waiting is
a next state with nothing changed is the model's choice (log entry 6). -/
def Obligations.DisabledActionsWait : Prop :=
  (∀ (s : State) (a : Action), enabled a s = false → perform a s = .next s) ∧
  (∀ (i : Instr) (s : State), s.phase ≠ .idle → exec i s = .next s)

/-- 70_reset_and_hazards.md §3 (R236) and 95_test_vectors.md §3 program 4: a command offered in DONE is not accepted
with the TAKE but at the edge after it, so its Issue follows the Resp. -/
def Obligations.OfferInDoneWaitsForTheTake : Prop :=
  ∀ (s : State) (c c' : CmdWord) (v : VarCode) (k : Count) (es : List Edge), s.phase = .done →
    s.var = some v → s.result = some k →
    s.edges = { offerEdge c with respReady := true } :: offerEdge c' :: es →
    runSteps 2 s = .next
      { s with phase := .busy, var := some (c'.extractLsb' 32 2), work := some (c'.extractLsb' 0 32),
               acc := some 0#6, idx := some 0#6, edges := es,
               history := s.history ++ [.resp (v ++ k), .issue c'] }

/-! ISSUE and TAKE -/

/-- R101. The whole next state is given, so what ISSUE leaves unchanged is stated too. Outside IDLE an edge that offers a
command does what the edge without the offer does, so the offer is not queued and overwrites nothing; and the engine
comes back to IDLE only with a response, so no command is dropped. -/
def Obligations.IssueLatchesTheCommand : Prop :=
  (∀ (i : Instr) (s : State), s.phase = .idle →
    exec i s = .next
      { s with phase := .busy, var := some (variantCode i.variant), work := some i.operand, acc := some 0#6,
               idx := some 0#6, history := s.history ++ [.issue (encode i)] }) ∧
  (∀ s : State, s.phase = .idle → (edgeNow s).rst = false → (edgeNow s).cmdValid = true →
    step s = .next
      { s with phase := .busy, var := some ((edgeNow s).cmdData.extractLsb' 32 2),
               work := some ((edgeNow s).cmdData.extractLsb' 0 32), acc := some 0#6, idx := some 0#6,
               history := s.history ++ [.issue (edgeNow s).cmdData], edges := s.edges.tail }) ∧
  (∀ s t : State, s.phase ≠ .idle → (edgeNow s).rst = false → step s = .next t →
    cmdReady false s = false ∧ t.var = s.var ∧ (∀ c, t.history ≠ s.history ++ [.issue c]) ∧
    (t.phase = .idle → s.phase = .done ∧ ∃ r, t.history = s.history ++ [.resp r])) ∧
  (∀ (s : State) (e : Edge) (es : List Edge) (c : CmdWord), s.phase ≠ .idle → e.rst = false →
    step { s with edges := { e with cmdValid := true, cmdData := c } :: es } =
      step { s with edges := { e with cmdValid := false } :: es })

/-- R105: BUSY is entered with `acc` at 0, whatever an earlier command or reset left. -/
def Obligations.AccumulatorStartsAtZero : Prop :=
  ∀ s t : State, s.phase ≠ .busy → step s = .next t → t.phase = .busy → t.acc = some 0#6

/-- R103. The whole next state is given, so what TAKE leaves unchanged is stated too. Outside DONE `resp_data` shows
nothing (R34), and an edge with `resp_ready` does what the edge without it does. -/
def Obligations.TakeDeliversTheResponse : Prop :=
  (∀ (s : State) (v : VarCode) (k : Count), s.phase = .done → s.var = some v → s.result = some k →
    (edgeNow s).rst = false → (edgeNow s).respReady = true →
    step s = .next { s with phase := .idle, history := s.history ++ [.resp (v ++ k)], edges := s.edges.tail }) ∧
  (∀ s t : State, s.phase ≠ .done → step s = .next t → ∀ r, t.history ≠ s.history ++ [.resp r]) ∧
  (∀ s : State, s.phase ≠ .done → ∀ rst, respValid rst s = false ∧ respData rst s = none) ∧
  (∀ (s : State) (e : Edge) (es : List Edge), s.phase ≠ .done → e.rst = false →
    step { s with edges := { e with respReady := true } :: es } =
      step { s with edges := { e with respReady := false } :: es })

/-! Engine steps -/

/-- R131. -/
def Obligations.ScanStepRule : Prop :=
  ∀ (s : State) (a : Count), s.phase = .busy → s.var = some 0b00#2 → s.acc = some a →
    (s.idx = some 32#6 → engineStep s = .next { s with result := some a, phase := .done }) ∧
    (∀ i w, i ≠ 32#6 → s.idx = some i → s.work = some w →
      engineStep s = .next
        { s with acc := some (a + BitVec.setWidth 6 (w &&& 1#32)), work := some (w >>> 1), idx := some (i + 1#6) })

/-- R151. -/
def Obligations.KernStepRule : Prop :=
  ∀ (s : State) (w : Word) (a : Count), s.phase = .busy → s.var = some 0b01#2 → s.work = some w → s.acc = some a →
    (w = 0#32 → engineStep s = .next { s with result := some a, phase := .done }) ∧
    (w ≠ 0#32 → engineStep s = .next { s with work := some (w &&& (w - 1#32)), acc := some (a + 1#6) })

/-- R171. -/
def Obligations.LutStepRule : Prop :=
  ∀ (s : State) (a : Count), s.phase = .busy → s.var = some 0b10#2 → s.acc = some a →
    (s.idx = some 4#6 → engineStep s = .next { s with result := some a, phase := .done }) ∧
    (∀ i w, i ≠ 4#6 → s.idx = some i → s.work = some w →
      engineStep s = .next
        { s with acc := some (a + BitVec.setWidth 6 (lutRead (w.extractLsb' 0 8))), work := some (w >>> 8),
                 idx := some (i + 1#6) })

/-- R191, with the five rows of R190. -/
def Obligations.ParStepRule : Prop :=
  ∀ (s : State) (w : Word), s.phase = .busy → s.var = some 0b11#2 → s.work = some w →
    (s.idx = some 5#6 → engineStep s = .next { s with result := some (w.extractLsb' 0 6), phase := .done }) ∧
    (∀ row ∈ [(0#6, 1, 0x55555555#32), (1#6, 2, 0x33333333#32), (2#6, 4, 0x0F0F0F0F#32), (3#6, 8, 0x00FF00FF#32),
        (4#6, 16, 0x0000FFFF#32)],
      s.idx = some row.1 →
      engineStep s = .next
        { s with work := some ((w &&& row.2.2) + ((w >>> row.2.1) &&& row.2.2)), idx := some (row.1 + 1#6) })

/-- 40_command_interface.md §1 (R104): an engine step stays in BUSY or completes, and its frame. -/
def Obligations.EngineStepFrame : Prop :=
  ∀ s t : State, s.phase = .busy → engineStep s = .next t →
    t.var = s.var ∧ t.history = s.history ∧ t.edges = s.edges ∧
    ((t.phase = .busy ∧ t.result = s.result) ∨
     (t.phase = .done ∧ t.result.isSome = true ∧ t.work = s.work ∧ t.acc = s.acc ∧ t.idx = s.idx)) ∧
    (s.var = some 0b01#2 → t.idx = s.idx) ∧ (s.var = some 0b11#2 → t.acc = s.acc)

/-- 10_state.md §1 (the table of R21): who writes each element, over every step that is not a RESET. -/
def Obligations.ElementsHaveOnlyTheirWriters : Prop :=
  ∀ s t : State, (edgeNow s).rst = false → step s = .next t →
    (t.phase ≠ s.phase →
      (s.phase = .idle ∧ t.phase = .busy) ∨ (s.phase = .busy ∧ t.phase = .done) ∨
      (s.phase = .done ∧ t.phase = .idle)) ∧
    (t.var ≠ s.var → s.phase = .idle ∧ t.phase = .busy) ∧
    (t.work ≠ s.work → (s.phase = .idle ∧ t.phase = .busy) ∨ (s.phase = .busy ∧ t.phase = .busy)) ∧
    (t.acc ≠ s.acc → (s.phase = .idle ∧ t.phase = .busy) ∨
      (s.phase = .busy ∧ t.phase = .busy ∧ s.var ≠ some 0b11#2)) ∧
    (t.idx ≠ s.idx → (s.phase = .idle ∧ t.phase = .busy) ∨
      (s.phase = .busy ∧ t.phase = .busy ∧ s.var ≠ some 0b01#2)) ∧
    (t.result ≠ s.result → s.phase = .busy ∧ t.phase = .done)

/-- 10_state.md §1 (R29) and 60_exceptions.md §3 (R223): a step that reads an element holding no value faults. Which
elements each branch reads is the model's reading of the step rules (log entry 18). -/
def Obligations.ReadingNoValueFaults : Prop :=
  ∀ s : State,
    (s.phase = .busy → s.var = none → engineStep s = .fault .readNoValue) ∧
    (s.phase = .busy → s.var = some 0b00#2 → (s.idx = none ∨ s.acc = none) → engineStep s = .fault .readNoValue) ∧
    (s.phase = .busy → s.var = some 0b00#2 → s.idx ≠ some 32#6 → s.work = none →
      engineStep s = .fault .readNoValue) ∧
    (s.phase = .busy → s.var = some 0b01#2 → (s.work = none ∨ s.acc = none) → engineStep s = .fault .readNoValue) ∧
    (s.phase = .busy → s.var = some 0b10#2 → (s.idx = none ∨ s.acc = none) → engineStep s = .fault .readNoValue) ∧
    (s.phase = .busy → s.var = some 0b10#2 → s.idx ≠ some 4#6 → s.work = none →
      engineStep s = .fault .readNoValue) ∧
    (s.phase = .busy → s.var = some 0b11#2 → (s.idx = none ∨ s.work = none) → engineStep s = .fault .readNoValue) ∧
    (s.phase = .done → (s.var = none ∨ s.result = none) → take s = .fault .readNoValue)

/-! The constant tables -/

/-- 20_memory.md §2 (R51): every entry of the ROM is the number of set bits of its index. -/
def Obligations.LutRomHoldsBitCounts : Prop := ∀ b : Byte, (lutRead b).toNat = bitCount b 0 8

/-- R54. -/
def Obligations.LutRomMeetsItsChecks : Prop :=
  (lutRead 0#8).toNat = 0 ∧ (lutRead 255#8).toNat = 8 ∧
  ∀ b : Byte, b ≠ 0#8 → (lutRead b).toNat = (lutRead (b >>> 1)).toNat + (b.getLsbD 0).toNat

/-- 44_parallel_reduction.md (R194, R190): stage j puts in every lane of width 2^(j+1) the sum of the two lanes of
width 2^j below it, for every value of `work`: no carry leaves a lane. -/
def Obligations.ParStageAddsLaneByLane : Prop :=
  ∀ (w m : Word) (j s p : Nat), j < 5 → parStage (BitVec.ofNat 6 j) = some (s, m) → p < 32 / 2 ^ (j + 1) →
    s = 2 ^ j ∧ lane (laneSum s m w) (2 * s) p = lane w s (2 * p) + lane w s (2 * p + 1)

/-! Encoding -/

/-- 30_encoding.md §1 and §3 (R70, R74): no bit of a command word is dropped, either way. -/
def Obligations.DecodeAndEncodeAgree : Prop :=
  (∀ i : Instr, decode (encode i) = i) ∧ (∀ c : CmdWord, encode (decode c) = c)

/-- R71, R74: decoding goes by bits [33:32] alone, and the operand is bits [31:0]. -/
def Obligations.DecodingGoesByTheVariantBits : Prop :=
  ∀ c : CmdWord,
    (c.extractLsb' 32 2 = 0b00#2 → decode c = .popcScan (c.extractLsb' 0 32)) ∧
    (c.extractLsb' 32 2 = 0b01#2 → decode c = .popcKern (c.extractLsb' 0 32)) ∧
    (c.extractLsb' 32 2 = 0b10#2 → decode c = .popcLut (c.extractLsb' 0 32)) ∧
    (c.extractLsb' 32 2 = 0b11#2 → decode c = .popcPar (c.extractLsb' 0 32))

/-- R75: the mask and match of each mnemonic pick out exactly its words. -/
def Obligations.MaskAndMatchPickTheVariant : Prop :=
  ∀ c : CmdWord,
    (c &&& 0x300000000#34 = 0x000000000#34 ↔ ∃ n, decode c = .popcScan n) ∧
    (c &&& 0x300000000#34 = 0x100000000#34 ↔ ∃ n, decode c = .popcKern n) ∧
    (c &&& 0x300000000#34 = 0x200000000#34 ↔ ∃ n, decode c = .popcLut n) ∧
    (c &&& 0x300000000#34 = 0x300000000#34 ↔ ∃ n, decode c = .popcPar n)

/-- 30_encoding.md §3 (R74): a word that fits 34 bits decodes. That it is given as a number with a width, of which only
the bits below the width count, and that a number of more than 34 bits is refused by name, are the model's choice: the
spec says nothing of numbers wider than `cmd_data` (log entry 13). -/
def Obligations.WordNumbersDecodeOrAreTooWide : Prop :=
  (∀ (i : Instr) (nbits : Nat), 34 ≤ nbits → decodeTableWord nbits (encode i).toNat = some i) ∧
  (∀ w, 2 ^ 34 ≤ w → decodeNumber w = .error .wordTooWide)

/-- R79: the six worked encodings and their responses. -/
def Obligations.WorkedEncodingsAndResponses : Prop :=
  ∀ row ∈ [(Instr.popcScan 11#32, 0x00000000B#34, 0x03#8), (.popcKern 11#32, 0x10000000B#34, 0x43#8),
      (.popcLut 128#32, 0x200000080#34, 0x81#8), (.popcPar 4294967293#32, 0x3FFFFFFFD#34, 0xDF#8),
      (.popcPar 0xFFFFFFFF#32, 0x3FFFFFFFF#34, 0xE0#8), (.popcScan 0#32, 0x000000000#34, 0x00#8)],
    encode row.1 = row.2.1 ∧ decode row.2.1 = row.1 ∧
    (nextOf (wholeCommand row.1 State.reset)).map (·.history) = some [.reset, .issue row.2.1, .resp row.2.2]

/-- 30_encoding.md §1 (R72): a response's fields read back, and a COUNT of 33 to 63 is refused; that a host-side
decoder refuses it is the model's choice among what R72 allows (log entry 17). -/
def Obligations.ResponseFieldsReadBack : Prop :=
  ∀ (v : Variant) (k : Count),
    (k.toNat ≤ 32 → decodeResp (respWord (variantCode v) k) = .ok (v, k)) ∧
    (33 ≤ k.toNat → decodeResp (respWord (variantCode v) k) = .error .countOutOfRange)

/-- 30_encoding.md §4 (R77): a command line's operand is a 32-bit value or an assembly error, and the command it makes
has the mnemonic's VARIANT. -/
def Obligations.AssemblerChecksTheOperand : Prop :=
  ∀ (v : Variant) (n : Nat),
    (n < 2 ^ 32 → ∃ i, assembleCommand v n = .ok (.popc i) ∧
      (encode i).toNat = (variantCode v).toNat * 2 ^ 32 + n) ∧
    (2 ^ 32 ≤ n → assembleCommand v n = .error .operandOutOfRange)

/-! Whole commands -/

/-- R106 with R134, R154 and R195: after ISSUE the engine is BUSY for exactly STEPS − 1 further steps, and DONE with
the count after STEPS. -/
def Obligations.EveryCommandReachesDone : Prop :=
  (∀ (i : Instr) (s : State), s.phase = .idle →
    ∃ t, exec i s = .next t ∧
      (∀ j, j < stepsNeeded i.variant i.operand → ∃ u, engineSteps j t = .next u ∧ u.phase = .busy) ∧
      ∃ u k, engineSteps (stepsNeeded i.variant i.operand) t = .next u ∧ u.phase = .done ∧
        u.var = some (variantCode i.variant) ∧ u.result = some k ∧ k.toNat = popcount i.operand ∧
        u.history = s.history ++ [.issue (encode i)] ∧ u.edges = s.edges) ∧
  (∀ n, stepsNeeded .scan n = 33 ∧ stepsNeeded .kern n = popcount n + 1 ∧ stepsNeeded .lut n = 5 ∧
    stepsNeeded .par n = 6) ∧
  stepsNeeded .kern 0#32 = 1 ∧ stepsNeeded .kern 0xFFFFFFFF#32 = 33

/-- R108: no operand and no variant takes more than 33 engine steps. -/
def Obligations.EveryCommandCompletesWithin33Steps : Prop :=
  (∀ (i : Instr) (s : State), s.phase = .idle →
    ∃ t k u, exec i s = .next t ∧ k ≤ 33 ∧ engineSteps k t = .next u ∧ u.phase = .done) ∧
  (∀ v n, stepsNeeded v n ≤ 33) ∧ (∀ n, stepsNeeded .scan n = 33) ∧ stepsNeeded .kern 0xFFFFFFFF#32 = 33

/-- R132: where a SCAN command stands after `j` iterations. -/
def Obligations.ScanProgress : Prop :=
  ∀ (n : Word) (s : State) (j : Nat), s.phase = .idle → j ≤ 32 →
    ∃ t u a, exec (.popcScan n) s = .next t ∧ engineSteps j t = .next u ∧ u.phase = .busy ∧
      u.idx = some (BitVec.ofNat 6 j) ∧ u.work = some (n >>> j) ∧ u.acc = some a ∧
      a.toNat = bitCount n 0 j ∧ a.toNat ≤ j ∧ a.toNat + popcount (n >>> j) = popcount n ∧
      (j = 32 → n >>> j = 0#32 ∧ a.toNat = popcount n)

/-- R152: where a KERN command stands after `j` iterations, and what one iteration does to a nonzero `work`. -/
def Obligations.KernProgress : Prop :=
  (∀ w : Word, w ≠ 0#32 → ∃ k, k < 32 ∧ w.getLsbD k = true ∧ (∀ i, i < k → w.getLsbD i = false) ∧
    ∀ i, (clearLowest w).getLsbD i = (w.getLsbD i && decide (i ≠ k))) ∧
  (∀ n : Word, popcount n ≤ 32) ∧
  ∀ (n : Word) (s : State) (j : Nat), s.phase = .idle → j ≤ popcount n →
    ∃ t u a w, exec (.popcKern n) s = .next t ∧ engineSteps j t = .next u ∧ u.phase = .busy ∧
      u.idx = some 0#6 ∧ u.acc = some a ∧ u.work = some w ∧ a.toNat = j ∧
      popcount w = popcount n - j ∧ a.toNat + popcount w = popcount n ∧ (w = 0#32 ↔ j = popcount n)

/-- R172: where a LUT command stands after `j` iterations. -/
def Obligations.LutProgress : Prop :=
  ∀ (n : Word) (s : State) (j : Nat), s.phase = .idle → j ≤ 4 →
    ∃ t u a, exec (.popcLut n) s = .next t ∧ engineSteps j t = .next u ∧ u.phase = .busy ∧
      u.idx = some (BitVec.ofNat 6 j) ∧ u.work = some (n >>> (8 * j)) ∧ u.acc = some a ∧
      a.toNat = lutSum n j ∧ a.toNat ≤ 8 * j ∧ a.toNat + popcount (n >>> (8 * j)) = popcount n ∧
      (j = 4 → n >>> (8 * j) = 0#32 ∧ a.toNat = popcount n)

/-- 44_parallel_reduction.md (R192): where a PAR command stands after `j` stages. -/
def Obligations.ParProgress : Prop :=
  ∀ (n : Word) (s : State) (j : Nat), s.phase = .idle → j ≤ 5 →
    ∃ t u w, exec (.popcPar n) s = .next t ∧ engineSteps j t = .next u ∧ u.phase = .busy ∧
      u.idx = some (BitVec.ofNat 6 j) ∧ u.acc = some 0#6 ∧ u.work = some w ∧
      (∀ p, p < 32 / 2 ^ j → lane w (2 ^ j) p = bitCount n (p * 2 ^ j) (2 ^ j) ∧ lane w (2 ^ j) p ≤ 2 ^ j) ∧
      (j = 5 → w.extractLsb' 6 26 = 0#26 ∧ (w.extractLsb' 0 6).toNat = popcount n)

/-- R114: on one operand the four commands' responses have the same COUNT and differ in VARIANT only. -/
def Obligations.TheFourVariantsAgree : Prop :=
  ∀ (n : Word) (s : State), s.phase = .idle →
    ∃ k : Count, k.toNat = popcount n ∧ ∀ v, ∃ t, wholeCommand (commandOf v n) s = .next t ∧ t.phase = .idle ∧
      t.history = s.history ++ [.issue (variantCode v ++ n), .resp (variantCode v ++ k)]

/-- R112, R113: of the reference function, and of what any two commands return. -/
def Obligations.CountsObeyTheBitIdentities : Prop :=
  (∀ n : Word, popcount n = popcount (n >>> 1) + (n.getLsbD 0).toNat) ∧
  (∀ n : Word, popcount n + popcount (~~~n) = 32) ∧
  ∀ (n : Word) (v v' : Variant) (s : State), s.phase = .idle →
    ∃ t u u' a b b', wholeCommand (commandOf v n) s = .next t ∧ t.result = some a ∧
      wholeCommand (commandOf v' (n >>> 1)) s = .next u ∧ u.result = some b ∧
      wholeCommand (commandOf v' (~~~n)) s = .next u' ∧ u'.result = some b' ∧
      a.toNat = b.toNat + (n.getLsbD 0).toNat ∧ a.toNat + b'.toNat = 32

/-- R107: the engine with one STEP from BUSY to DONE has exactly the event histories of the full engine. -/
def Obligations.TheAbstractEngineHasTheSameHistories : Prop :=
  ∀ (s : State) (h : List Event), s.phase = .idle →
    ((∃ acts t, runActions perform acts s = .next t ∧ t.history = h) ↔
     (∃ acts t, runActions abstractPerform acts s = .next t ∧ t.history = h))

/-- 10_state.md, opening (no state survives from one command to the next in a way that affects a result), and
40_command_interface.md §5: two IDLE states that differ in the elements other than `phase` show the host the same
history and the same ports for ever. -/
def Obligations.LeftoverElementsAreNeverSeen : Prop :=
  ∀ (s s' : State) (k : Nat), s.phase = .idle → s'.phase = .idle → s.history = s'.history → s.edges = s'.edges →
    ∃ t t', runSteps k s = .next t ∧ runSteps k s' = .next t' ∧ t.phase = t'.phase ∧ t.history = t'.history ∧
      t.edges = t'.edges ∧ ∀ rst, respData rst t = respData rst t'

/-! The invariant -/

/-- The invariant holds after reset. -/
def Obligations.InvariantHoldsAtReset : Prop := Inv State.reset

/-- Every step keeps the invariant, whatever the host does (R37, R110, R132, R152, R172, R192). -/
def Obligations.EveryStepKeepsTheInvariant : Prop :=
  ∀ s t : State, Inv s → step s = .next t → Inv t

/-- 60_exceptions.md §1 and §3 (R210, R223): no state that meets the invariant stops. -/
def Obligations.TheMachineNeverStops : Prop :=
  ∀ s : State, Inv s → ∃ t, step s = .next t

/-- 10_state.md §3 (R37). -/
def Obligations.ElementsHoldValuesWhereRead : Prop :=
  ∀ s : State, Inv s →
    (s.phase = .busy → s.var.isSome = true ∧ s.work.isSome = true ∧ s.acc.isSome = true ∧ s.idx.isSome = true) ∧
    (s.phase = .done → s.var.isSome = true ∧ ∃ k, s.result = some k ∧ k.toNat ≤ 32) ∧
    (∀ t, s.phase = .done → (edgeNow s).rst = false → step s = .next t → t.var = s.var)

/-- R110, for every history of a state that meets the invariant: the event before a Resp is the Issue it answers. -/
def Obligations.ResponsesAnswerTheLastCommand : Prop :=
  ∀ (s : State) (before after : List Event) (r : RespWord), Inv s → s.history = before ++ .resp r :: after →
    ∃ (a : List Event) (c : CmdWord), before = a ++ [.issue c] ∧ r.extractLsb' 6 2 = c.extractLsb' 32 2 ∧
      (r.extractLsb' 0 6).toNat = popcount (c.extractLsb' 0 32)

/-- R111. -/
def Obligations.CountsAreInRange : Prop :=
  ∀ (s : State) (before after : List Event) (r : RespWord), Inv s → s.history = before ++ .resp r :: after →
    ∃ (a : List Event) (c : CmdWord), before = a ++ [.issue c] ∧ (r.extractLsb' 0 6).toNat ≤ 32 ∧
      ((r.extractLsb' 0 6).toNat = 0 ↔ c.extractLsb' 0 32 = 0#32) ∧
      ((r.extractLsb' 0 6).toNat = 32 ↔ c.extractLsb' 0 32 = 0xFFFFFFFF#32)

/-- 70_reset_and_hazards.md §4 (R242) with R108: while the host asserts no reset, the command in flight is answered
rightly, after at most one step for each edge the host has listed and 33 more. That the engine steps at every edge
after the list is the model's form of weak fairness (log entry 5). -/
def Obligations.EveryCommandIsAnswered : Prop :=
  ∀ (s : State) (c : CmdWord), Inv s → s.phase = .busy → pending s.history = some c →
    (∀ e ∈ s.edges, e.rst = false) →
    ∃ n t k, n ≤ s.edges.length + 33 ∧ runSteps n s = .next t ∧ t.phase = .done ∧ t.history = s.history ∧
      t.var = some (c.extractLsb' 32 2) ∧ t.result = some k ∧ k.toNat = popcount (c.extractLsb' 0 32)

/-- R238: a host that neither takes nor resets leaves the engine in DONE for ever, with nothing changed; and
70_reset_and_hazards.md §1 (R233): one that neither issues nor resets leaves it in IDLE. -/
def Obligations.TheEngineWaitsForTheHost : Prop :=
  ∀ (s : State) (k : Nat),
    (s.phase = .done → (∀ e ∈ s.edges, e.rst = false ∧ e.respReady = false) →
      runSteps k s = .next { s with edges := s.edges.drop k }) ∧
    (s.phase = .idle → (∀ e ∈ s.edges, e.rst = false ∧ e.cmdValid = false) →
      runSteps k s = .next { s with edges := s.edges.drop k })
end

