-- ==== Sys2Proof/Laws/Bits.lean ====
section
/-! SUPPORT. Counting set bits: fields side by side, shifts, and clearing the lowest set bit. -/

namespace Sys2Proof

open Machine

theorem bitCount_zero {w : Nat} (n : BitVec w) (lo : Nat) : bitCount n lo 0 = 0 := rfl

/-- One more bit. -/
theorem bitCount_succ {w : Nat} (n : BitVec w) (lo len : Nat) :
    bitCount n lo (len + 1) = bitCount n lo len + (n.getLsbD (lo + len)).toNat := by
  simp [bitCount, List.range_succ]

/-- Two fields side by side. -/
theorem bitCount_add {w : Nat} (n : BitVec w) (lo a b : Nat) :
    bitCount n lo (a + b) = bitCount n lo a + bitCount n (lo + a) b := by
  induction b with
  | zero => simp [bitCount_zero]
  | succ b ih => rw [← Nat.add_assoc, bitCount_succ, bitCount_succ, ih]; simp [Nat.add_assoc]

/-- No field has more set bits than bits. -/
theorem bitCount_le {w : Nat} (n : BitVec w) (lo len : Nat) : bitCount n lo len ≤ len := by
  induction len with
  | zero => simp [bitCount_zero]
  | succ len ih => rw [bitCount_succ]; have := Bool.toNat_le (n.getLsbD (lo + len)); omega

theorem popcount_le (n : Word) : popcount n ≤ 32 := bitCount_le n 0 32

/-- Equal fields have equal counts. -/
theorem bitCount_congr {w v : Nat} {n : BitVec w} {m : BitVec v} {lo lo' len : Nat}
    (h : ∀ i, i < len → n.getLsbD (lo + i) = m.getLsbD (lo' + i)) : bitCount n lo len = bitCount m lo' len := by
  induction len with
  | zero => rfl
  | succ len ih =>
    rw [bitCount_succ, bitCount_succ, ih fun i hi => h i (by omega), h len (by omega)]

/-- There is nothing to count above the word. -/
theorem bitCount_above {w : Nat} (n : BitVec w) {lo : Nat} (h : w ≤ lo) (len : Nat) : bitCount n lo len = 0 := by
  induction len with
  | zero => rfl
  | succ len ih => rw [bitCount_succ, ih, BitVec.getLsbD_of_ge n _ (by omega)]; rfl

/-- A right shift moves the field counted up. -/
theorem bitCount_shift {w : Nat} (n : BitVec w) (j lo len : Nat) :
    bitCount (n >>> j) lo len = bitCount n (j + lo) len :=
  bitCount_congr fun i _ => by simp [Nat.add_assoc]

/-- What is counted below bit `j` and what is left above it make up the whole count. -/
theorem bitCount_add_popcount_shift (n : Word) (j : Nat) : bitCount n 0 j + popcount (n >>> j) = popcount n := by
  have h1 := bitCount_add n 0 j 32
  have h2 := bitCount_add n 0 32 j
  have h3 : bitCount n 32 j = 0 := bitCount_above n (Nat.le_refl 32) j
  rw [Nat.zero_add] at h1 h2
  rw [popcount, popcount, bitCount_shift, Nat.add_zero]
  rw [Nat.add_comm 32 j] at h2
  omega

/-- A field taken out of a word has the count it had in place. -/
theorem bitCount_extract {w : Nat} (n : BitVec w) (lo len : Nat) :
    bitCount (n.extractLsb' lo len) 0 len = bitCount n lo len :=
  bitCount_congr fun i hi => by simp [hi]

theorem popcount_zero : popcount 0#32 = 0 := by decide

/-- One bit alone changed from 1 to 0 takes one off the count. -/
theorem bitCount_clear {w : Nat} {n m : BitVec w} {k : Nat} (hk : n.getLsbD k = true) (hm : m.getLsbD k = false)
    (hrest : ∀ i, i ≠ k → m.getLsbD i = n.getLsbD i) (len : Nat) (hlt : k < len) :
    bitCount n 0 len = bitCount m 0 len + 1 := by
  induction len with
  | zero => omega
  | succ len ih =>
    rw [bitCount_succ, bitCount_succ, Nat.zero_add]
    by_cases h : k = len
    · subst h
      rw [bitCount_congr (m := m) (lo' := 0) fun i hi => (by rw [hrest]; omega), hk, hm]
      simp
    · rw [ih (by omega), hrest len (by omega)]; omega

/-- `n AND (n - 1)` clears the lowest set bit of a nonzero number (R152). -/
theorem and_pred_bits (n : Nat) (h : n ≠ 0) : ∃ k, n.testBit k = true ∧ (∀ i, i < k → n.testBit i = false) ∧
    ∀ i, (n &&& (n - 1)).testBit i = (n.testBit i && decide (i ≠ k)) := by
  induction n using Nat.strongRecOn with
  | _ n ih =>
    rcases Nat.even_or_odd' n with ⟨m, rfl | rfl⟩
    · obtain ⟨k, hk, hlow, hbits⟩ := ih m (by omega) (by omega)
      refine ⟨k + 1, by simpa [Nat.testBit_succ] using hk, fun i hi => ?_, fun i => ?_⟩
      · cases i with
        | zero => simp
        | succ i => simpa [Nat.testBit_succ] using hlow i (by omega)
      · cases i with
        | zero => simp
        | succ i =>
          have h2 : (2 * m - 1) / 2 = m - 1 := by omega
          have hi := hbits i
          rw [Nat.testBit_and] at hi ⊢
          rw [Nat.testBit_succ, Nat.testBit_succ, h2, Nat.mul_div_cancel_left m (by omega), hi]
          simp
    · refine ⟨0, by simp, by simp, fun i => ?_⟩
      cases i with
      | zero => simp
      | succ i =>
        rw [Nat.testBit_and, Nat.testBit_succ, Nat.testBit_succ]
        have h1 : (2 * m + 1) / 2 = m := by omega
        simp [h1]

/-- Clearing the lowest set bit takes one off the count (R152). -/
theorem popcount_clearLowest (w : Word) (h : w ≠ 0#32) : popcount w = popcount (clearLowest w) + 1 := by
  have hn : w.toNat ≠ 0 := fun e => h (BitVec.eq_of_toNat_eq (by simpa using e))
  obtain ⟨k, hk, -, hbits⟩ := and_pred_bits w.toNat hn
  have hsub : (w - 1#32).toNat = w.toNat - 1 := by
    have := w.isLt
    simp [BitVec.toNat_sub]; omega
  have hlt : k < 32 := by
    by_contra hge
    rw [Nat.testBit_lt_two_pow (Nat.lt_of_lt_of_le w.isLt (Nat.pow_le_pow_right (by decide) (by omega)))] at hk
    cases hk
  have hbit : ∀ i, (clearLowest w).getLsbD i = (w.getLsbD i && decide (i ≠ k)) := fun i => by
    have hi := hbits i
    rw [← hsub, ← BitVec.toNat_and] at hi
    exact hi
  exact bitCount_clear hk (by simp [hbit]) (fun i hi => by simp [hbit, hi]) 32 hlt

/-- No set bit, no value. -/
theorem popcount_eq_zero (w : Word) : popcount w = 0 ↔ w = 0#32 := by
  constructor
  · intro h
    by_contra hne
    have := popcount_clearLowest w hne
    omega
  · rintro rfl; exact popcount_zero
end Sys2Proof
end

