-- ==== Sys2Proof/Laws/State.lean ====
section
/-! SUPPORT. What each update of State leaves in each field: one lemma per field per update, so that no proof unfolds
a record update. -/

namespace Sys2Proof.Machine

variable (s : State) (c : CmdWord) (r : RespWord) (k a i : Count) (w : Word)

@[simp] theorem issued_phase : (issued c s).phase = .busy := rfl
@[simp] theorem issued_var : (issued c s).var = some (cmdVariant c) := rfl
@[simp] theorem issued_work : (issued c s).work = some (cmdOperand c) := rfl
@[simp] theorem issued_acc : (issued c s).acc = some 0#6 := rfl
@[simp] theorem issued_idx : (issued c s).idx = some 0#6 := rfl
@[simp] theorem issued_result : (issued c s).result = s.result := rfl
@[simp] theorem issued_history : (issued c s).history = s.history ++ [.issue c] := rfl
@[simp] theorem issued_edges : (issued c s).edges = s.edges := rfl

@[simp] theorem taken_phase : (taken r s).phase = .idle := rfl
@[simp] theorem taken_var : (taken r s).var = s.var := rfl
@[simp] theorem taken_work : (taken r s).work = s.work := rfl
@[simp] theorem taken_acc : (taken r s).acc = s.acc := rfl
@[simp] theorem taken_idx : (taken r s).idx = s.idx := rfl
@[simp] theorem taken_result : (taken r s).result = s.result := rfl
@[simp] theorem taken_history : (taken r s).history = s.history ++ [.resp r] := rfl
@[simp] theorem taken_edges : (taken r s).edges = s.edges := rfl

@[simp] theorem resetNow_phase : (resetNow s).phase = .idle := rfl
@[simp] theorem resetNow_var : (resetNow s).var = none := rfl
@[simp] theorem resetNow_work : (resetNow s).work = none := rfl
@[simp] theorem resetNow_acc : (resetNow s).acc = none := rfl
@[simp] theorem resetNow_idx : (resetNow s).idx = none := rfl
@[simp] theorem resetNow_result : (resetNow s).result = none := rfl
@[simp] theorem resetNow_history : (resetNow s).history = s.history ++ [.reset] := rfl
@[simp] theorem resetNow_edges : (resetNow s).edges = s.edges := rfl

@[simp] theorem complete_phase : (complete k s).phase = .done := rfl
@[simp] theorem complete_var : (complete k s).var = s.var := rfl
@[simp] theorem complete_work : (complete k s).work = s.work := rfl
@[simp] theorem complete_acc : (complete k s).acc = s.acc := rfl
@[simp] theorem complete_idx : (complete k s).idx = s.idx := rfl
@[simp] theorem complete_result : (complete k s).result = some k := rfl
@[simp] theorem complete_history : (complete k s).history = s.history := rfl
@[simp] theorem complete_edges : (complete k s).edges = s.edges := rfl

@[simp] theorem setWork_phase : (setWork w s).phase = s.phase := rfl
@[simp] theorem setWork_var : (setWork w s).var = s.var := rfl
@[simp] theorem setWork_work : (setWork w s).work = some w := rfl
@[simp] theorem setWork_acc : (setWork w s).acc = s.acc := rfl
@[simp] theorem setWork_idx : (setWork w s).idx = s.idx := rfl
@[simp] theorem setWork_result : (setWork w s).result = s.result := rfl
@[simp] theorem setWork_history : (setWork w s).history = s.history := rfl
@[simp] theorem setWork_edges : (setWork w s).edges = s.edges := rfl

@[simp] theorem setAcc_phase : (setAcc a s).phase = s.phase := rfl
@[simp] theorem setAcc_var : (setAcc a s).var = s.var := rfl
@[simp] theorem setAcc_work : (setAcc a s).work = s.work := rfl
@[simp] theorem setAcc_acc : (setAcc a s).acc = some a := rfl
@[simp] theorem setAcc_idx : (setAcc a s).idx = s.idx := rfl
@[simp] theorem setAcc_result : (setAcc a s).result = s.result := rfl
@[simp] theorem setAcc_history : (setAcc a s).history = s.history := rfl
@[simp] theorem setAcc_edges : (setAcc a s).edges = s.edges := rfl

@[simp] theorem setIdx_phase : (setIdx i s).phase = s.phase := rfl
@[simp] theorem setIdx_var : (setIdx i s).var = s.var := rfl
@[simp] theorem setIdx_work : (setIdx i s).work = s.work := rfl
@[simp] theorem setIdx_acc : (setIdx i s).acc = s.acc := rfl
@[simp] theorem setIdx_idx : (setIdx i s).idx = some i := rfl
@[simp] theorem setIdx_result : (setIdx i s).result = s.result := rfl
@[simp] theorem setIdx_history : (setIdx i s).history = s.history := rfl
@[simp] theorem setIdx_edges : (setIdx i s).edges = s.edges := rfl

@[simp] theorem dropEdge_phase : (dropEdge s).phase = s.phase := rfl
@[simp] theorem dropEdge_var : (dropEdge s).var = s.var := rfl
@[simp] theorem dropEdge_work : (dropEdge s).work = s.work := rfl
@[simp] theorem dropEdge_acc : (dropEdge s).acc = s.acc := rfl
@[simp] theorem dropEdge_idx : (dropEdge s).idx = s.idx := rfl
@[simp] theorem dropEdge_result : (dropEdge s).result = s.result := rfl
@[simp] theorem dropEdge_history : (dropEdge s).history = s.history := rfl
@[simp] theorem dropEdge_edges : (dropEdge s).edges = s.edges.tail := rfl

theorem edgeNow_cons (e : Edge) (es : List Edge) (h : s.edges = e :: es) : edgeNow s = e := by
  simp [edgeNow, h]

/-- With no signals listed, the host is quiet. -/
theorem edgeNow_nil (h : s.edges = []) : edgeNow s = quietEdge := by
  simp [edgeNow, h]

end Sys2Proof.Machine
end

