-- ==== Sys2Proof/Laws/Ops.lean ====
section
/-! SUPPORT. What each shared operation can do, said once. -/

namespace Sys2Proof.Machine

/-! ### Reading an element -/

@[simp] theorem need_some {α : Type} (v : α) (k : α → Host.Outcome State Fault Refusal) :
    need (some v) k = k v := rfl

@[simp] theorem need_none {α : Type} (k : α → Host.Outcome State Fault Refusal) :
    need none k = .fault .readNoValue := rfl

/-- A read that goes on found a value. -/
theorem need_eq_next {α : Type} {x : Option α} {k : α → Host.Outcome State Fault Refusal} {t : State} :
    need x k = .next t ↔ ∃ v, x = some v ∧ k v = .next t := by
  cases x <;> simp

/-! ### Sequences -/

@[simp] theorem andThen_next (s : State) (k : State → Host.Outcome State Fault Refusal) :
    andThen (.next s) k = k s := rfl

theorem andThen_eq_next {o : Host.Outcome State Fault Refusal} {k : State → Host.Outcome State Fault Refusal}
    {t : State} : andThen o k = .next t ↔ ∃ s, o = .next s ∧ k s = .next t := by
  cases o <;> simp [andThen]

theorem andThen_assoc (o : Host.Outcome State Fault Refusal) (k l : State → Host.Outcome State Fault Refusal) :
    andThen (andThen o k) l = andThen o fun s => andThen (k s) l := by
  cases o <;> rfl

/-! ### ISSUE and TAKE -/

/-- ISSUE in IDLE (R101). -/
theorem issue_idle {c : CmdWord} {s : State} (h : s.phase = .idle) : issue c s = .next (issued c s) := by
  simp [issue, h]

/-- Outside IDLE the host waits. -/
theorem issue_waits {c : CmdWord} {s : State} (h : s.phase ≠ .idle) : issue c s = .next s := by
  unfold issue; split <;> simp_all

/-- Everything ISSUE can do. -/
theorem issue_cases {c : CmdWord} {s t : State} (h : issue c s = .next t) :
    (s.phase = .idle ∧ t = issued c s) ∨ (s.phase ≠ .idle ∧ t = s) := by
  by_cases hp : s.phase = .idle
  · simp_all [issue_idle hp]
  · simp_all [issue_waits hp]

/-- TAKE in DONE (R103). -/
theorem take_done {s : State} {v : VarCode} {k : Count} (h : s.phase = .done) (hv : s.var = some v)
    (hk : s.result = some k) : take s = .next (taken (respWord v k) s) := by
  simp [take, h, hv, hk]

/-- Outside DONE the host waits. -/
theorem take_waits {s : State} (h : s.phase ≠ .done) : take s = .next s := by
  unfold take; split <;> simp_all

/-- Everything TAKE can do, where it goes on. -/
theorem take_cases {s t : State} (h : take s = .next t) :
    (s.phase = .done ∧ ∃ v k, s.var = some v ∧ s.result = some k ∧ t = taken (respWord v k) s) ∨
    (s.phase ≠ .done ∧ t = s) := by
  by_cases hp : s.phase = .done
  · simp only [take, hp, need_eq_next] at h
    obtain ⟨v, hv, k, hk, ht⟩ := h
    injection ht with ht
    exact .inl ⟨hp, v, k, hv, hk, ht.symm⟩
  · simp_all [take_waits hp]

/-! ### Ports -/

theorem cmdReady_eq_true {rst : Bool} {s : State} : cmdReady rst s = true ↔ s.phase = .idle ∧ rst = false := by
  simp [cmdReady]

theorem respValid_eq_true {rst : Bool} {s : State} : respValid rst s = true ↔ s.phase = .done ∧ rst = false := by
  simp [respValid]

end Sys2Proof.Machine
end

