-- ==== Sys2Proof/Laws/Engine.lean ====
section
/-! SUPPORT. What an engine step can do, said once per variant and once for STEP, and how steps add up. -/

namespace Sys2Proof.Machine

/-- A SCAN step that goes on completes or iterates (R131). -/
theorem scanStep_cases {s t : State} (h : scanStep s = .next t) :
    ∃ i a, s.idx = some i ∧ s.acc = some a ∧
      ((i = Config.scanIters ∧ t = complete a s) ∨
       (i ≠ Config.scanIters ∧ ∃ w, s.work = some w ∧
         t = setIdx (i + 1#6) (setWork (w >>> 1) (setAcc (a + lowBit w) s)))) := by
  obtain ⟨i, hi, h⟩ := need_eq_next.1 h
  by_cases hc : i = Config.scanIters
  · obtain ⟨a, ha, h⟩ := need_eq_next.1 (by simpa [hc] using h)
    injection h with h
    exact ⟨i, a, hi, ha, .inl ⟨hc, h.symm⟩⟩
  · obtain ⟨a, ha, h⟩ := need_eq_next.1 (by simpa only [if_neg hc] using h)
    obtain ⟨w, hw, h⟩ := need_eq_next.1 h
    injection h with h
    exact ⟨i, a, hi, ha, .inr ⟨hc, w, hw, h.symm⟩⟩

/-- A KERN step that goes on completes or iterates (R151). -/
theorem kernStep_cases {s t : State} (h : kernStep s = .next t) :
    ∃ w a, s.work = some w ∧ s.acc = some a ∧
      ((w = 0#32 ∧ t = complete a s) ∨ (w ≠ 0#32 ∧ t = setAcc (a + 1#6) (setWork (clearLowest w) s))) := by
  obtain ⟨w, hw, h⟩ := need_eq_next.1 h
  by_cases hc : w = 0#32
  · obtain ⟨a, ha, h⟩ := need_eq_next.1 (by simpa [hc] using h)
    injection h with h
    exact ⟨w, a, hw, ha, .inl ⟨hc, h.symm⟩⟩
  · obtain ⟨a, ha, h⟩ := need_eq_next.1 (by simpa only [if_neg hc] using h)
    injection h with h
    exact ⟨w, a, hw, ha, .inr ⟨hc, h.symm⟩⟩

/-- A LUT step that goes on completes or iterates (R171). -/
theorem lutStep_cases {s t : State} (h : lutStep s = .next t) :
    ∃ i a, s.idx = some i ∧ s.acc = some a ∧
      ((i = Config.lutLookups ∧ t = complete a s) ∨
       (i ≠ Config.lutLookups ∧ ∃ w, s.work = some w ∧
         t = setIdx (i + 1#6) (setWork (w >>> 8) (setAcc (a + lutCount w) s)))) := by
  obtain ⟨i, hi, h⟩ := need_eq_next.1 h
  by_cases hc : i = Config.lutLookups
  · obtain ⟨a, ha, h⟩ := need_eq_next.1 (by simpa [hc] using h)
    injection h with h
    exact ⟨i, a, hi, ha, .inl ⟨hc, h.symm⟩⟩
  · obtain ⟨a, ha, h⟩ := need_eq_next.1 (by simpa only [if_neg hc] using h)
    obtain ⟨w, hw, h⟩ := need_eq_next.1 h
    injection h with h
    exact ⟨i, a, hi, ha, .inr ⟨hc, w, hw, h.symm⟩⟩

/-- A PAR step that goes on completes or does one stage (R191). -/
theorem parStep_cases {s t : State} (h : parStep s = .next t) :
    ∃ i w, s.idx = some i ∧ s.work = some w ∧
      ((i = Config.parStages ∧ t = complete (lowCount w) s) ∨
       (i ≠ Config.parStages ∧ ∃ n m, parStage i = some (n, m) ∧
         t = setIdx (i + 1#6) (setWork (laneSum n m w) s))) := by
  obtain ⟨i, hi, h⟩ := need_eq_next.1 h
  by_cases hc : i = Config.parStages
  · obtain ⟨w, hw, h⟩ := need_eq_next.1 (by simpa [hc] using h)
    injection h with h
    exact ⟨i, w, hi, hw, .inl ⟨hc, h.symm⟩⟩
  · obtain ⟨w, hw, h⟩ := need_eq_next.1 (by simpa only [if_neg hc] using h)
    obtain ⟨⟨n, m⟩, hr, h⟩ := need_eq_next.1 h
    injection h with h
    exact ⟨i, w, hi, hw, .inr ⟨hc, n, m, hr, h.symm⟩⟩

/-! The same steps forwards: from the elements a step reads, what it answers. -/

theorem scanStep_complete {s : State} {a : Count} (hi : s.idx = some Config.scanIters) (ha : s.acc = some a) :
    scanStep s = .next (complete a s) := by
  simp [scanStep, hi, ha]

theorem scanStep_iterate {s : State} {i a : Count} {w : Word} (hi : s.idx = some i) (hne : i ≠ Config.scanIters)
    (ha : s.acc = some a) (hw : s.work = some w) :
    scanStep s = .next (setIdx (i + 1#6) (setWork (w >>> 1) (setAcc (a + lowBit w) s))) := by
  simp [scanStep, hi, hne, ha, hw]

theorem kernStep_complete {s : State} {a : Count} (hw : s.work = some 0#32) (ha : s.acc = some a) :
    kernStep s = .next (complete a s) := by
  simp [kernStep, hw, ha]

theorem kernStep_iterate {s : State} {a : Count} {w : Word} (hw : s.work = some w) (hne : w ≠ 0#32)
    (ha : s.acc = some a) : kernStep s = .next (setAcc (a + 1#6) (setWork (clearLowest w) s)) := by
  simp [kernStep, hw, hne, ha]

theorem lutStep_complete {s : State} {a : Count} (hi : s.idx = some Config.lutLookups) (ha : s.acc = some a) :
    lutStep s = .next (complete a s) := by
  simp [lutStep, hi, ha]

theorem lutStep_iterate {s : State} {i a : Count} {w : Word} (hi : s.idx = some i) (hne : i ≠ Config.lutLookups)
    (ha : s.acc = some a) (hw : s.work = some w) :
    lutStep s = .next (setIdx (i + 1#6) (setWork (w >>> 8) (setAcc (a + lutCount w) s))) := by
  simp [lutStep, hi, hne, ha, hw]

theorem parStep_complete {s : State} {w : Word} (hi : s.idx = some Config.parStages) (hw : s.work = some w) :
    parStep s = .next (complete (lowCount w) s) := by
  simp [parStep, hi, hw]

theorem parStep_iterate {s : State} {i : Count} {w m : Word} {n : Nat} (hi : s.idx = some i)
    (hne : i ≠ Config.parStages) (hw : s.work = some w) (hr : parStage i = some (n, m)) :
    parStep s = .next (setIdx (i + 1#6) (setWork (laneSum n m w) s)) := by
  simp [parStep, hi, hne, hw, hr]

/-- STEP in BUSY runs the variant that `var` names (R104). -/
theorem engineStep_busy {s : State} {v : VarCode} (h : s.phase = .busy) (hv : s.var = some v) :
    engineStep s = variantStep (variantOf v) s := by
  simp [engineStep, h, hv]

/-- Outside BUSY the engine waits. -/
theorem engineStep_waits {s : State} (h : s.phase ≠ .busy) : engineStep s = .next s := by
  unfold engineStep; split <;> simp_all

/-- An engine step that goes on in BUSY read `var`, and is that variant's step. -/
theorem engineStep_cases {s t : State} (h : s.phase = .busy) (hs : engineStep s = .next t) :
    ∃ v, s.var = some v ∧ variantStep (variantOf v) s = .next t := by
  simp only [engineStep, h] at hs
  exact need_eq_next.1 hs

@[simp] theorem engineSteps_zero (s : State) : engineSteps 0 s = .next s := rfl

theorem engineSteps_succ (k : Nat) (s : State) :
    engineSteps (k + 1) s = andThen (engineStep s) (engineSteps k) := rfl

/-- Engine steps add up. -/
theorem engineSteps_add (j k : Nat) (s : State) :
    engineSteps (j + k) s = andThen (engineSteps j s) (engineSteps k) := by
  induction j generalizing s with
  | zero => simp
  | succ j ih =>
    rw [Nat.add_right_comm, engineSteps_succ, engineSteps_succ, andThen_assoc]
    exact congrArg _ (funext ih)

/-- Outside BUSY any number of engine steps waits. -/
theorem engineSteps_wait {s : State} (h : s.phase ≠ .busy) (k : Nat) : engineSteps k s = .next s := by
  induction k with
  | zero => rfl
  | succ k ih => rw [engineSteps_succ, engineStep_waits h, andThen_next, ih]

/-- Every command is issued as its own word (R101, R133, R153, R173, R193). -/
theorem exec_eq_issue (i : Instr) (s : State) : exec i s = issue (encode i) s := by
  cases i <;> rfl

end Sys2Proof.Machine
end

