-- ==== Sys2Proof/Laws/Clock.lean ====
section
/-! SUPPORT. What one rising edge can do, said once (spec/10_state.md rule R35). -/

namespace Sys2Proof.Machine

/-- A step is the coming edge. -/
theorem step_eq (s : State) : step s = atEdge (edgeNow s) (dropEdge s) := rfl

/-- A step on a listed edge. -/
theorem step_cons (s : State) (e : Edge) (es : List Edge) :
    step { s with edges := e :: es } = atEdge e { s with edges := es } := rfl

/-- The edge's four cases, in the order of R35, and the edge at which nothing happens. -/
theorem atEdge_cases (e : Edge) (s : State) :
    (e.rst = true ∧ atEdge e s = .next (resetNow s)) ∨
    (e.rst = false ∧ e.cmdValid = true ∧ s.phase = .idle ∧ atEdge e s = exec (decode e.cmdData) s) ∨
    (e.rst = false ∧ e.respReady = true ∧ s.phase = .done ∧ atEdge e s = take s) ∨
    (e.rst = false ∧ e.engineTurn = true ∧ s.phase = .busy ∧ atEdge e s = engineStep s) ∨
    (e.rst = false ∧ (e.cmdValid = true → s.phase ≠ .idle) ∧ (e.respReady = true → s.phase ≠ .done) ∧
      (e.engineTurn = true → s.phase ≠ .busy) ∧ atEdge e s = .next s) := by
  rcases hr : e.rst <;> rcases hc : e.cmdValid <;> rcases ht : e.respReady <;> rcases hg : e.engineTurn <;>
    rcases hp : s.phase <;>
    simp [atEdge, actionAt, perform, cmdReady, respValid, hr, hc, ht, hg, hp]

end Sys2Proof.Machine
end

