-- ==== Sys2Proof/Laws/Encode.lean ====
section
/-! SUPPORT. The fields of command and response words (spec/30_encoding.md rules R70 and R72). -/

namespace Sys2Proof

/-- The bits of a command word put together from its fields (R70). -/
theorem cmdWord_getLsbD (v : VarCode) (n : Word) (i : Nat) :
    (cmdWord v n).getLsbD i = if i < 32 then n.getLsbD i else v.getLsbD (i - 32) :=
  BitVec.getLsbD_append (x := v) (y := n) (i := i)

/-- The bits of a response word put together from its fields (R72). -/
theorem respWord_getLsbD (v : VarCode) (k : Count) (i : Nat) :
    (respWord v k).getLsbD i = if i < 6 then k.getLsbD i else v.getLsbD (i - 6) :=
  BitVec.getLsbD_append (x := v) (y := k) (i := i)

@[simp] theorem cmdVariant_cmdWord (v : VarCode) (n : Word) : cmdVariant (cmdWord v n) = v := by
  apply BitVec.eq_of_getLsbD_eq
  intro i hi
  simp [cmdVariant, cmdWord_getLsbD, hi]

@[simp] theorem cmdOperand_cmdWord (v : VarCode) (n : Word) : cmdOperand (cmdWord v n) = n := by
  apply BitVec.eq_of_getLsbD_eq
  intro i hi
  simp [cmdOperand, cmdWord_getLsbD, hi]

@[simp] theorem respVariant_respWord (v : VarCode) (k : Count) : (respWord v k).extractLsb' 6 2 = v := by
  apply BitVec.eq_of_getLsbD_eq
  intro i hi
  simp [respWord_getLsbD, hi]

@[simp] theorem respCount_respWord (v : VarCode) (k : Count) : (respWord v k).extractLsb' 0 6 = k := by
  apply BitVec.eq_of_getLsbD_eq
  intro i hi
  simp [respWord_getLsbD, hi]

/-- A command word is its two fields. -/
theorem cmdWord_fields (c : CmdWord) : cmdWord (cmdVariant c) (cmdOperand c) = c := by
  apply BitVec.eq_of_getLsbD_eq
  intro i hi
  rw [cmdWord_getLsbD]
  split
  · simp [cmdOperand, *]
  · have h1 : i - 32 < 2 := by omega
    have h2 : 32 + (i - 32) = i := by omega
    simp [cmdVariant, h1, h2]

@[simp] theorem variantOf_variantCode (v : Variant) : variantOf (variantCode v) = v := by
  cases v <;> rfl

@[simp] theorem variantCode_variantOf (v : VarCode) : variantCode (variantOf v) = v := by
  revert v; decide

/-- Decoding makes the selected variant's command on the operand (R71, R74). -/
theorem decode_eq_commandOf (c : CmdWord) : decode c = Machine.commandOf (variantOf (cmdVariant c)) (cmdOperand c) := by
  unfold decode Machine.commandOf
  split <;> simp_all

@[simp] theorem variant_commandOf (v : Variant) (n : Word) : (Machine.commandOf v n).variant = v := by
  cases v <;> rfl

@[simp] theorem operand_commandOf (v : Variant) (n : Word) : (Machine.commandOf v n).operand = n := by
  cases v <;> rfl

/-- The encoder on the selected variant's command. -/
theorem encode_commandOf (v : Variant) (n : Word) : encode (Machine.commandOf v n) = cmdWord (variantCode v) n := by
  cases v <;> rfl

/-- Every command has its operand in range: the checks of WellFormed.lean are about numbers from outside. -/
theorem wellFormed_all (i : Instr) : i.wellFormed = true := by
  simp [Instr.wellFormed, operandOk, i.operand.isLt]

end Sys2Proof
end

