-- ==== Sys2Proof/Laws/Lanes.lean ====
section
/-! SUPPORT. The PAR stages on numbers: a mask of low halves splits a word lane by lane (spec/44_parallel_reduction.md
rules R190 and R192). -/

namespace Sys2Proof

open Machine


/-- The mask of `k` low halves: ones in the low `s` bits of each of `k` lanes of width `2s`. -/
def halfMask (s : Nat) : Nat → Nat
  | 0 => 0
  | k + 1 => (2 ^ s - 1) + 2 ^ (2 * s) * halfMask s k

/-- A PAR stage on numbers: the low halves of the lanes plus their high halves moved down. -/
def halfSum (s k x : Nat) : Nat := (x &&& halfMask s k) + ((x / 2 ^ s) &&& halfMask s k)

/-- The lowest lane and the lanes above it, masked. -/
theorem and_halfMask_succ (s k x : Nat) :
    x &&& halfMask s (k + 1) = x % 2 ^ s + 2 ^ (2 * s) * ((x / 2 ^ (2 * s)) &&& halfMask s k) := by
  have hB : 2 ^ s ≤ 2 ^ (2 * s) := Nat.pow_le_pow_right (by decide) (by omega)
  have hs : 0 < 2 ^ s := Nat.two_pow_pos s
  have hm : halfMask s (k + 1) % 2 ^ (2 * s) = 2 ^ s - 1 := by
    rw [halfMask, Nat.add_mul_mod_self_left, Nat.mod_eq_of_lt (by omega)]
  have hd : halfMask s (k + 1) / 2 ^ (2 * s) = halfMask s k := by
    rw [halfMask, Nat.add_mul_div_left _ _ (by omega), Nat.div_eq_of_lt (by omega), Nat.zero_add]
  rw [← Nat.mod_add_div (x &&& halfMask s (k + 1)) (2 ^ (2 * s)), Nat.and_mod_two_pow, Nat.and_div_two_pow, hm, hd,
    Nat.and_two_pow_sub_one_eq_mod, Nat.mod_mod_of_dvd _ (Nat.pow_dvd_pow 2 (by omega))]

/-- A stage does the lowest lane and the lanes above it apart. -/
theorem halfSum_succ (s k x : Nat) :
    halfSum s (k + 1) x =
      (x % 2 ^ s + x / 2 ^ s % 2 ^ s) + 2 ^ (2 * s) * halfSum s k (x / 2 ^ (2 * s)) := by
  have hc : x / 2 ^ s / 2 ^ (2 * s) = x / 2 ^ (2 * s) / 2 ^ s := by
    rw [Nat.div_div_eq_div_mul, Nat.div_div_eq_div_mul, Nat.mul_comm]
  rw [halfSum, and_halfMask_succ, and_halfMask_succ, hc, halfSum, Nat.mul_add]; omega

/-- The field of width `s` at position `p` of a number. -/
def digit (s x p : Nat) : Nat := x / 2 ^ (p * s) % 2 ^ s

/-- Two halves fit the lane they are added into. -/
theorem low_lt (s x : Nat) (hs : 0 < s) : x % 2 ^ s + x / 2 ^ s % 2 ^ s < 2 ^ (2 * s) := by
  have h1 := Nat.mod_lt x (Nat.two_pow_pos s)
  have h2 := Nat.mod_lt (x / 2 ^ s) (Nat.two_pow_pos s)
  have h3 : 2 ^ (2 * s) = 2 ^ s * 2 ^ s := by rw [two_mul, pow_add]
  have h4 : 2 ≤ 2 ^ s := by
    calc 2 = 2 ^ 1 := rfl
      _ ≤ 2 ^ s := Nat.pow_le_pow_right (by decide) hs
  have h5 : 2 * 2 ^ s ≤ 2 ^ s * 2 ^ s := Nat.mul_le_mul_right _ h4
  omega

/-- Each new lane is the sum of its two halves. -/
theorem digit_halfSum (s k x p : Nat) (hs : 0 < s) (hp : p < k) :
    digit (2 * s) (halfSum s k x) p = digit s x (2 * p) + digit s x (2 * p + 1) := by
  induction k generalizing x p with
  | zero => omega
  | succ k ih =>
    have hlow := low_lt s x hs
    rw [halfSum_succ]
    cases p with
    | zero => 
      simp only [digit, Nat.zero_mul, Nat.pow_zero, Nat.div_one, Nat.mul_zero, Nat.zero_add, Nat.one_mul]
      rw [Nat.add_mul_mod_self_left, Nat.mod_eq_of_lt hlow]
    | succ p =>
      have key : ∀ y q t, digit t y (q + 1) = digit t (y / 2 ^ t) q := by
        intro y q t
        rw [digit, digit, Nat.div_div_eq_div_mul, ← pow_add, Nat.add_mul, Nat.one_mul, Nat.add_comm t]
      rw [key, Nat.add_mul_div_left _ _ (Nat.two_pow_pos _), Nat.div_eq_of_lt hlow, Nat.zero_add, ih _ _ (by omega)]
      rw [show 2 * (p + 1) = 2 * p + 1 + 1 from rfl, key x (2 * p + 1 + 1) s, key x (2 * p + 1) s, key (x / 2 ^ s) (2 * p) s,
        key (x / 2 ^ s) (2 * p + 1) s]
      rw [show x / 2 ^ s / 2 ^ s = x / 2 ^ (2 * s) by rw [Nat.div_div_eq_div_mul, ← pow_add, two_mul]]

/-- The sum of a stage does not wrap. -/
theorem halfSum_lt (s k x : Nat) (hs : 0 < s) : halfSum s k x < 2 ^ (2 * s * k) := by
  induction k generalizing x with
  | zero => simp [halfSum, halfMask]
  | succ k ih =>
    have hlow := low_lt s x hs
    have h := ih (x / 2 ^ (2 * s))
    rw [halfSum_succ, Nat.mul_succ, pow_add, Nat.mul_comm (2 ^ (2 * s * k))]
    calc _ < 2 ^ (2 * s) + 2 ^ (2 * s) * halfSum s k (x / 2 ^ (2 * s)) := by omega
      _ = 2 ^ (2 * s) * (halfSum s k (x / 2 ^ (2 * s)) + 1) := by rw [Nat.mul_succ, Nat.add_comm]
      _ ≤ _ := Nat.mul_le_mul_left _ h

/-- A lane of `work` is a field of its number. -/
theorem lane_eq_digit (w : Word) (len p : Nat) : lane w len p = digit len w.toNat p := by
  simp [lane, digit, BitVec.extractLsb'_toNat, Nat.shiftRight_eq_div_pow]

/-- The step's lane sum is the stage on numbers, for a mask of low halves. -/
theorem laneSum_toNat (s k : Nat) (m w : Word) (hs : 0 < s) (hm : m.toNat = halfMask s k) (hk : 2 * s * k = 32) :
    (laneSum s m w).toNat = halfSum s k w.toNat := by
  have := halfSum_lt s k w.toNat hs
  rw [hk] at this
  rw [laneSum, BitVec.toNat_add, BitVec.toNat_and, BitVec.toNat_and, BitVec.toNat_ushiftRight, hm,
    Nat.shiftRight_eq_div_pow]
  exact Nat.mod_eq_of_lt this

end Sys2Proof
end

