-- ==== Sys2Proof/Laws/PerInstr.lean ====
section
/-! SUPPORT. Facts about every command as syntax, one lemma per constructor. -/

namespace Sys2Proof.Laws.OpcodeMap

/-- A command's word has its row's match value under the opcode map's mask (R75), its VARIANT code in bits [33:32]
(R71) and its operand in bits [31:0] (R70). -/
def Statement (i : Instr) : Prop :=
  encode i &&& cmdMask = cmdMatch i.variant ∧ cmdVariant (encode i) = variantCode i.variant ∧
    cmdOperand (encode i) = i.operand

/-- Masking leaves the VARIANT field alone. -/
theorem masked (v : VarCode) (n : Word) : cmdWord v n &&& cmdMask = cmdWord v 0#32 := by
  apply BitVec.eq_of_getLsbD_eq
  intro i hi
  have hm : ∀ i, i < 34 → cmdMask.getLsbD i = decide (32 ≤ i) := by decide
  rw [BitVec.getLsbD_and, cmdWord_getLsbD, cmdWord_getLsbD, hm i hi]
  by_cases h : i < 32
  · simp [h, Nat.not_le.2 h]
  · simp [h, Nat.le_of_not_lt h]

theorem popcScan (n : Word) : Statement (.popcScan n) :=
  ⟨masked 0b00#2 n, cmdVariant_cmdWord 0b00#2 n, cmdOperand_cmdWord 0b00#2 n⟩

theorem popcKern (n : Word) : Statement (.popcKern n) :=
  ⟨masked 0b01#2 n, cmdVariant_cmdWord 0b01#2 n, cmdOperand_cmdWord 0b01#2 n⟩

theorem popcLut (n : Word) : Statement (.popcLut n) :=
  ⟨masked 0b10#2 n, cmdVariant_cmdWord 0b10#2 n, cmdOperand_cmdWord 0b10#2 n⟩

theorem popcPar (n : Word) : Statement (.popcPar n) :=
  ⟨masked 0b11#2 n, cmdVariant_cmdWord 0b11#2 n, cmdOperand_cmdWord 0b11#2 n⟩

end Sys2Proof.Laws.OpcodeMap
end

