-- ==== Sys2Proof/Tests/Slice0.lean ====
section
/-! SUPPORT. Tests: words and traces that spec/ writes out, checked one step at a time, and for each statement with
hypotheses a state and operands that meet them. Expected values come from the file each test names. -/

namespace Sys2Proof.Tests

open Sys2Proof Sys2Proof.Machine

/-! ### Small states -/

/-- An engine part-way through a command, after a reset and that command's Issue. -/
def midway (c : CmdWord) (w : Word) (a i : Count) : State :=
  setIdx i (setAcc a (setWork w (issued c State.reset)))

/-- An engine whose response to `c` is waiting. -/
def waiting (c : CmdWord) (k : Count) : State := complete k (issued c State.reset)

/-- The same state with the host's signals at the coming edges. -/
def driven (es : List Edge) (s : State) : State := { s with edges := es }

/-- The elements a step leaves, for comparison. -/
def elements (o : Host.Outcome State Fault Refusal) : Option (Phase × Option Word × Option Count × Option Count × Option Count) :=
  (nextOf o).map fun s => (s.phase, s.work, s.acc, s.idx, s.result)

/-! ### Well-formedness: each check refuses an ill-formed term -/

theorem test_operand_2_32_refused : operandOk (2 ^ 32) = false ∧ operandOk (2 ^ 32 - 1) = true := by decide

theorem test_word_2_34_refused : cmdNumberOk (2 ^ 34) = false ∧ cmdNumberOk (2 ^ 34 - 1) = true := by decide

theorem test_count_33_refused : countOk 33#6 = false ∧ countOk 32#6 = true := by decide

theorem test_commands_well_formed : (Instr.popcScan 0xFFFFFFFF#32).wellFormed = true := by decide

/-! ### Decoding: words written bit by bit from 30_encoding.md R70 and R75 -/

theorem test_decode_scan_word : decode 0b0000000000000000000000000000001011#34 = .popcScan 11#32 := by decide

theorem test_decode_kern_word : decode 0b0110000000000000000000000000000001#34 = .popcKern 0x80000001#32 := by decide

theorem test_decode_lut_word : decode 0b1000010010001101000101011001111000#34 = .popcLut 0x12345678#32 := by decide

theorem test_decode_par_word : decode 0b1111111111111111111111111111111101#34 = .popcPar 0xFFFFFFFD#32 := by decide

theorem test_decode_table_words :
    decodeTableWord 40 0x000000000 = some (.popcScan 0#32) ∧ decodeTableWord 40 0x100000000 = some (.popcKern 0#32) ∧
    decodeTableWord 40 0x200000000 = some (.popcLut 0#32) ∧ decodeTableWord 40 0x300000000 = some (.popcPar 0#32) ∧
    decodeTableWord 40 0x400000000 = none := by decide

theorem test_response_words :
    respWord 0b11#2 31#6 = 0xDF#8 ∧ respWord 0b10#2 1#6 = 0x81#8 ∧ respWord 0b01#2 3#6 = 0x43#8 := by decide

/-! ### The first step after reset accepts and runs the command (10_state.md R35, 40_command_interface.md R101) -/

theorem test_fetch_runs_the_command :
    nextOf (step (State.reset.withFetchWord 40 0x20000000B)) = some (issued 0x20000000B#34 State.reset) := by decide

/-! ### Engine steps, from the worked traces of 41 to 44 and 95_test_vectors.md §2 -/

/-- 41_bitwise_scan.md R136, the step from row 3 to row 4. -/
theorem test_scan_iteration :
    elements (engineStep (midway 0x00000000B#34 1#32 2#6 3#6)) = some (.busy, some 0#32, some 3#6, some 4#6, none) := by
  decide

/-- 95_test_vectors.md §2.2: the only set bit of 0x80000000 is reached at the 32nd iteration; then completion. -/
theorem test_scan_last_bit_and_completion :
    elements (engineStep (midway 0x080000000#34 1#32 0#6 31#6)) = some (.busy, some 0#32, some 1#6, some 32#6, none) ∧
    elements (engineStep (midway 0x080000000#34 0#32 1#6 32#6)) = some (.done, some 0#32, some 1#6, some 32#6, some 1#6) :=
  ⟨by decide, by decide⟩

/-- 42_kernighan.md R155 and 95_test_vectors.md §2.3: 0xB to 0xA, and 0x80000000 to 0. -/
theorem test_kern_iterations :
    elements (engineStep (midway 0x10000000B#34 0xB#32 0#6 0#6)) = some (.busy, some 0xA#32, some 1#6, some 0#6, none) ∧
    elements (engineStep (midway 0x180000000#34 0x80000000#32 0#6 0#6)) = some (.busy, some 0#32, some 1#6, some 0#6, none) :=
  ⟨by decide, by decide⟩

/-- 42_kernighan.md R153: for operand 0 the first step completes. -/
theorem test_kern_zero_completes :
    elements (engineStep (midway 0x100000000#34 0#32 0#6 0#6)) = some (.done, some 0#32, some 0#6, some 0#6, some 0#6) := by
  decide

/-- 43_lut.md R176, rows 1 and 3. -/
theorem test_lut_iterations :
    elements (engineStep (midway 0x212345678#34 0x12345678#32 0#6 0#6)) = some (.busy, some 0x123456#32, some 4#6, some 1#6, none) ∧
    elements (engineStep (midway 0x212345678#34 0x1234#32 8#6 2#6)) = some (.busy, some 0x12#32, some 11#6, some 3#6, none) :=
  ⟨by decide, by decide⟩

/-- 95_test_vectors.md §2.4: the fourth lookup of 0xFFFFFFFF reaches 32; 43_lut.md R176 row 5 completes. -/
theorem test_lut_full_and_completion :
    elements (engineStep (midway 0x2FFFFFFFF#34 0xFF#32 24#6 3#6)) = some (.busy, some 0#32, some 32#6, some 4#6, none) ∧
    elements (engineStep (midway 0x212345678#34 0#32 13#6 4#6)) = some (.done, some 0#32, some 13#6, some 4#6, some 13#6) :=
  ⟨by decide, by decide⟩

/-- 95_test_vectors.md §2.5: stages of 0xDEADBEEF. -/
theorem test_par_stages :
    elements (engineStep (midway 0x3DEADBEEF#34 0xDEADBEEF#32 0#6 0#6)) = some (.busy, some 0x9959699A#32, some 0#6, some 1#6, none) ∧
    elements (engineStep (midway 0x3DEADBEEF#34 0x06050607#32 0#6 3#6)) = some (.busy, some 0x000B000D#32, some 0#6, some 4#6, none) :=
  ⟨by decide, by decide⟩

/-- 44_parallel_reduction.md R197, rows 5 and 6. -/
theorem test_par_last_stage_and_completion :
    elements (engineStep (midway 0x312345678#34 0x00050008#32 0#6 4#6)) = some (.busy, some 0xD#32, some 0#6, some 5#6, none) ∧
    elements (engineStep (midway 0x312345678#34 0xD#32 0#6 5#6)) = some (.done, some 0xD#32, some 0#6, some 5#6, some 13#6) :=
  ⟨by decide, by decide⟩

/-- 95_test_vectors.md §2.4: ROM spot checks. -/
theorem test_rom_spot_checks :
    [0x00#8, 0x01#8, 0x0B#8, 0x80#8, 0x7F#8, 0xAA#8, 0xFD#8, 0xFE#8, 0xFF#8].map lutRead =
      [0#4, 1#4, 3#4, 1#4, 7#4, 4#4, 7#4, 7#4, 8#4] := by decide

/-! ### Ports and host actions -/

/-- 30_encoding.md R79: TAKE delivers 0xDF for `popc.par 4294967293`. -/
theorem test_take_delivers :
    (nextOf (take (waiting 0x3FFFFFFFD#34 31#6))).map (·.history) =
      some [.reset, .issue 0x3FFFFFFFD#34, .resp 0xDF#8] := by decide

/-- 95_test_vectors.md §2.6: the ports in DONE, and in any phase under reset. -/
theorem test_ports_in_done :
    cmdReady false (waiting 0x00000000B#34 3#6) = false ∧ respData false (waiting 0x00000000B#34 3#6) = some 0x03#8 ∧
    respValid true (waiting 0x00000000B#34 3#6) = false := by decide

/-- 60_exceptions.md R212: reset wins at an edge at which everything is asserted. -/
theorem test_reset_wins :
    (nextOf (step (driven [{ offerEdge 0x00000000B#34 with rst := true, respReady := true }]
      (waiting 0x00000000B#34 3#6)))).map (fun s => (s.phase, s.history)) =
      some (.idle, [.reset, .issue 0x00000000B#34, .reset]) := by decide

/-- 30_encoding.md R77: a numeral above 2^32 − 1 is an assembly error; upper case means the same as lower. -/
theorem test_assembler_lines :
    (assembleLine "POPC.KERN 0x80000001 # comment".toList).toOption =
      some (some (.popc (.popcKern 0x80000001#32))) ∧
    (assembleLine "popc.lut 4294967296".toList).toOption = none ∧
    (assembleLine "take -> 1".toList).toOption = some (some .take) := by decide

/-- 95_test_vectors.md §3 program 4: a command offered in DONE waits; the TAKE comes first. -/
theorem test_host_offer_waits :
    let p := hostOffers { todo := [.popc (.popcKern 0x80000001#32), .take, .wait, .take], offer := none }
    (nextOf (atEdge (hostSignals p (waiting 0x2DEADBEEF#34 24#6)) (waiting 0x2DEADBEEF#34 24#6))).map (·.history) =
      some [.reset, .issue 0x2DEADBEEF#34, .resp 0x98#8] ∧
    hostAfter p (waiting 0x2DEADBEEF#34 24#6) = { todo := [.wait, .take], offer := some 0x180000001#34 } := by decide

/-! ### Hypotheses that are met: reset and edges -/

theorem witness_ResetAtAnyEdgeInAnyPhase :
    (edgeNow (driven [resetEdge] State.reset)).rst = true ∧
    (edgeNow (driven [resetEdge] (midway 0x00000000B#34 1#32 2#6 3#6))).rst = true ∧
    (edgeNow (driven [resetEdge] (waiting 0x00000000B#34 3#6))).rst = true := by decide

theorem witness_HoldingResetChangesNothingMore :
    ∀ j, j ≤ 1 → ((driven [resetEdge, resetEdge] State.reset).edges.getD j quietEdge).rst = true := by decide

/-- A state no run reaches, as power-up may be: BUSY with no value anywhere. -/
theorem witness_AfterAnyResetEveryRunAnswersRightly :
    (edgeNow (driven [resetEdge] { State.reset with phase := .busy })).rst = true := by decide

theorem witness_HandshakePortsFollowPhase :
    (respValid false (waiting 0x00000000B#34 3#6) = true ∧ (waiting 0x00000000B#34 3#6).var = some 0b00#2 ∧
      (waiting 0x00000000B#34 3#6).result = some 3#6) ∧
    respValid true (waiting 0x00000000B#34 3#6) = false := by decide

theorem witness_PortsHideTheDatapath :
    (setWork 5#32 (waiting 0x00000000B#34 3#6)).phase = (waiting 0x00000000B#34 3#6).phase ∧
    ((setWork 5#32 (waiting 0x00000000B#34 3#6)).phase = .done →
      (setWork 5#32 (waiting 0x00000000B#34 3#6)).var = (waiting 0x00000000B#34 3#6).var ∧
      (setWork 5#32 (waiting 0x00000000B#34 3#6)).result = (waiting 0x00000000B#34 3#6).result) := by decide

theorem witness_EdgePriority_reset : (edgeNow (driven [resetEdge] State.reset)).rst = true := by decide

theorem witness_EdgePriority_issue :
    (edgeNow (driven [offerEdge 0#34] State.reset)).rst = false ∧
    (edgeNow (driven [offerEdge 0#34] State.reset)).cmdValid = true ∧
    (driven [offerEdge 0#34] State.reset).phase = .idle := by decide

theorem witness_EdgePriority_take :
    (edgeNow (driven [takeEdge] (waiting 0#34 0#6))).rst = false ∧
    (edgeNow (driven [takeEdge] (waiting 0#34 0#6))).respReady = true ∧
    (driven [takeEdge] (waiting 0#34 0#6)).phase = .done := by decide

theorem witness_EdgePriority_engine :
    (edgeNow (midway 0#34 0#32 0#6 0#6)).rst = false ∧ (edgeNow (midway 0#34 0#32 0#6 0#6)).engineTurn = true ∧
    (midway 0#34 0#32 0#6 0#6).phase = .busy := by decide

theorem witness_EdgePriority_nothing :
    let s := driven [{ offerEdge 1#34 with respReady := true, engineTurn := false }] (midway 0#34 0#32 0#6 0#6)
    (edgeNow s).rst = false ∧ ((edgeNow s).cmdValid = true → s.phase ≠ .idle) ∧
    ((edgeNow s).respReady = true → s.phase ≠ .done) ∧ ((edgeNow s).engineTurn = true → s.phase ≠ .busy) := by decide

theorem witness_StepRunsTheDecodedCommand :
    (driven [offerEdge 0x30000000B#34] State.reset).edges = [offerEdge 0x30000000B#34] ∧
    (driven [offerEdge 0x30000000B#34] State.reset).phase = .idle ∧ (offerEdge 0x30000000B#34).rst = false ∧
    (offerEdge 0x30000000B#34).cmdValid = true ∧ decode (offerEdge 0x30000000B#34).cmdData = .popcPar 11#32 := by decide

/-- In BUSY: an offer with `resp_ready` on one side, nothing on the other. -/
theorem witness_UnacceptedOffersHaveNoEffect :
    let s := midway 0#34 0#32 0#6 0#6
    let e := { offerEdge 7#34 with respReady := true }
    e.rst = quietEdge.rst ∧ e.engineTurn = quietEdge.engineTurn ∧
    (cmdReady e.rst s = true → e.cmdValid = quietEdge.cmdValid ∧ (e.cmdValid = true → e.cmdData = quietEdge.cmdData)) ∧
    (respValid e.rst s = true → e.respReady = quietEdge.respReady) := by decide

theorem witness_AnyEnabledActionMayComeNext :
    enabled (.issue 0#34) State.reset = true ∧ enabled .take (waiting 0#34 0#6) = true ∧
    enabled .reset (midway 0#34 0#32 0#6 0#6) = true ∧ enabled .step (midway 0#34 0#32 0#6 0#6) = true := by decide

theorem witness_DisabledActionsWait :
    enabled (.issue 0#34) (midway 0#34 0#32 0#6 0#6) = false ∧ enabled .take State.reset = false ∧
    enabled .step (waiting 0#34 0#6) = false := by decide

theorem witness_OfferInDoneWaitsForTheTake :
    let s := driven [{ offerEdge 1#34 with respReady := true }, offerEdge 0x180000001#34] (waiting 0x2DEADBEEF#34 24#6)
    s.phase = .done ∧ s.var = some 0b10#2 ∧ s.result = some 24#6 ∧
    s.edges = { offerEdge 1#34 with respReady := true } :: offerEdge 0x180000001#34 :: [] := by decide

/-! ### Hypotheses that are met: ISSUE, TAKE and engine steps -/

theorem witness_IssueLatchesTheCommand_idle :
    State.reset.phase = .idle ∧
    (driven [offerEdge 0x3FFFFFFFF#34] State.reset).phase = .idle ∧
    (edgeNow (driven [offerEdge 0x3FFFFFFFF#34] State.reset)).rst = false ∧
    (edgeNow (driven [offerEdge 0x3FFFFFFFF#34] State.reset)).cmdValid = true := by decide

theorem witness_IssueLatchesTheCommand_elsewhere :
    let s := driven [offerEdge 5#34] (waiting 0#34 0#6)
    s.phase ≠ .idle ∧ (edgeNow s).rst = false ∧ step s = .next (dropEdge s) :=
  ⟨by decide, rfl, rfl⟩

/-- In BUSY the offer meets an engine that is due; in DONE the response is taken beside the offer. -/
theorem witness_IssueLatchesTheCommand_offers :
    (midway 0x10000000B#34 8#32 2#6 0#6).phase ≠ .idle ∧ (waiting 0#34 0#6).phase ≠ .idle ∧
    quietEdge.rst = false ∧ takeEdge.rst = false ∧
    step (driven [takeEdge] (waiting 0#34 0#6)) = .next (taken 0#8 (waiting 0#34 0#6)) ∧
    (taken 0#8 (waiting 0#34 0#6)).phase = .idle :=
  ⟨by decide, by decide, rfl, rfl, rfl, rfl⟩

theorem witness_AccumulatorStartsAtZero :
    let s := driven [offerEdge 5#34] (setAcc 9#6 State.reset)
    s.phase ≠ .busy ∧ step s = .next (issued 5#34 (dropEdge s)) ∧ (issued 5#34 (dropEdge s)).phase = .busy :=
  ⟨by decide, rfl, rfl⟩

theorem witness_TakeDeliversTheResponse_done :
    let s := driven [takeEdge] (waiting 0x3FFFFFFFF#34 32#6)
    s.phase = .done ∧ s.var = some 0b11#2 ∧ s.result = some 32#6 ∧ (edgeNow s).rst = false ∧
    (edgeNow s).respReady = true := by decide

theorem witness_TakeDeliversTheResponse_elsewhere :
    let s := driven [takeEdge] State.reset
    s.phase ≠ .done ∧ step s = .next (dropEdge s) :=
  ⟨by decide, rfl⟩

/-- In BUSY, and in IDLE with the last command's `var` and `result` still held. -/
theorem witness_TakeDeliversTheResponse_hidden :
    (midway 0x10000000B#34 8#32 2#6 0#6).phase ≠ .done ∧ (taken 0x98#8 (waiting 0x2DEADBEEF#34 24#6)).phase ≠ .done ∧
    (taken 0x98#8 (waiting 0x2DEADBEEF#34 24#6)).result = some 24#6 ∧ takeEdge.rst = false := by decide

theorem witness_ScanStepRule :
    let s := midway 0x0FFFFFFFF#34 0#32 32#6 32#6
    let u := midway 0x0FFFFFFFF#34 1#32 31#6 31#6
    (s.phase = .busy ∧ s.var = some 0b00#2 ∧ s.acc = some 32#6 ∧ s.idx = some 32#6) ∧
    (u.phase = .busy ∧ u.var = some 0b00#2 ∧ u.acc = some 31#6 ∧ (31#6 ≠ 32#6) ∧ u.idx = some 31#6 ∧
      u.work = some 1#32) := by decide

theorem witness_KernStepRule :
    let s := midway 0x1FFFFFFFF#34 0#32 32#6 0#6
    let u := midway 0x1FFFFFFFF#34 0x80000000#32 31#6 0#6
    (s.phase = .busy ∧ s.var = some 0b01#2 ∧ s.work = some 0#32 ∧ s.acc = some 32#6) ∧
    (u.phase = .busy ∧ u.var = some 0b01#2 ∧ u.work = some 0x80000000#32 ∧ u.acc = some 31#6 ∧
      0x80000000#32 ≠ 0#32) := by decide

theorem witness_LutStepRule :
    let s := midway 0x2FFFFFFFF#34 0#32 32#6 4#6
    let u := midway 0x2FFFFFFFF#34 0xFF#32 24#6 3#6
    (s.phase = .busy ∧ s.var = some 0b10#2 ∧ s.acc = some 32#6 ∧ s.idx = some 4#6) ∧
    (u.phase = .busy ∧ u.var = some 0b10#2 ∧ u.acc = some 24#6 ∧ (3#6 ≠ 4#6) ∧ u.idx = some 3#6 ∧
      u.work = some 0xFF#32) := by decide

theorem witness_ParStepRule :
    let s := midway 0x3FFFFFFFF#34 0x20#32 0#6 5#6
    let u := midway 0x3FFFFFFFF#34 0x00100010#32 0#6 4#6
    let v := midway 0x3FFFFFFFF#34 0xFFFFFFFF#32 0#6 0#6
    (s.phase = .busy ∧ s.var = some 0b11#2 ∧ s.work = some 0x20#32 ∧ s.idx = some 5#6) ∧
    (u.phase = .busy ∧ u.var = some 0b11#2 ∧ u.work = some 0x00100010#32 ∧ u.idx = some 4#6) ∧
    (v.phase = .busy ∧ v.var = some 0b11#2 ∧ v.work = some 0xFFFFFFFF#32 ∧ v.idx = some 0#6) := by decide

theorem witness_EngineStepFrame :
    let s := midway 0x1FFFFFFFF#34 0#32 32#6 0#6
    s.phase = .busy ∧ engineStep s = .next (complete 32#6 s) :=
  ⟨by decide, rfl⟩

theorem witness_ElementsHaveOnlyTheirWriters :
    let s := midway 0x1FFFFFFFF#34 0#32 32#6 0#6
    (edgeNow s).rst = false ∧ step s = .next (complete 32#6 s) :=
  ⟨by decide, rfl⟩

/-- A BUSY engine of each variant, with the named elements holding no value. -/
theorem witness_ReadingNoValueFaults :
    let b : State := { State.reset with phase := .busy }
    (b.phase = .busy ∧ b.var = none) ∧
    (let s := { b with var := some 0b00#2 }; s.var = some 0b00#2 ∧ (s.idx = none ∨ s.acc = none)) ∧
    (let s := { b with var := some 0b00#2, idx := some 31#6, acc := some 0#6 };
      s.idx ≠ some 32#6 ∧ s.work = none) ∧
    (let s := { b with var := some 0b01#2 }; s.var = some 0b01#2 ∧ (s.work = none ∨ s.acc = none)) ∧
    (let s := { b with var := some 0b10#2 }; s.var = some 0b10#2 ∧ (s.idx = none ∨ s.acc = none)) ∧
    (let s := { b with var := some 0b10#2, idx := some 3#6, acc := some 0#6 };
      s.idx ≠ some 4#6 ∧ s.work = none) ∧
    (let s := { b with var := some 0b11#2 }; s.var = some 0b11#2 ∧ (s.idx = none ∨ s.work = none)) ∧
    (let s := { State.reset with phase := .done }; s.phase = .done ∧ (s.var = none ∨ s.result = none)) := by decide

theorem witness_LutRomMeetsItsChecks : (1#8 : Byte) ≠ 0#8 ∧ (255#8 : Byte) ≠ 0#8 := by decide

/-- The first stage's highest lane, and the last stage's only one. -/
theorem witness_ParStageAddsLaneByLane :
    (0 < 5 ∧ parStage (BitVec.ofNat 6 0) = some (1, 0x55555555#32) ∧ 15 < 32 / 2 ^ (0 + 1)) ∧
    (4 < 5 ∧ parStage (BitVec.ofNat 6 4) = some (16, 0x0000FFFF#32) ∧ 0 < 32 / 2 ^ (4 + 1)) := by decide

theorem witness_DecodingGoesByTheVariantBits :
    BitVec.extractLsb' 32 2 0x0FFFFFFFF#34 = 0b00#2 ∧ BitVec.extractLsb' 32 2 0x100000000#34 = 0b01#2 ∧
    BitVec.extractLsb' 32 2 0x2FFFFFFFF#34 = 0b10#2 ∧ BitVec.extractLsb' 32 2 0x3FFFFFFFF#34 = 0b11#2 := by decide

theorem witness_WordNumbersDecodeOrAreTooWide : 34 ≤ 34 ∧ 2 ^ 34 ≤ 17179869184 := by decide

theorem witness_ResponseFieldsReadBack : (32#6).toNat ≤ 32 ∧ 33 ≤ (33#6).toNat := by decide

theorem witness_AssemblerChecksTheOperand : 4294967295 < 2 ^ 32 ∧ 2 ^ 32 ≤ 4294967296 := by decide

/-! ### Hypotheses that are met: whole commands -/

theorem witness_EveryCommandReachesDone :
    State.reset.phase = .idle ∧ 32 < stepsNeeded (Instr.popcKern 0xFFFFFFFF#32).variant 0xFFFFFFFF#32 := by decide

theorem witness_EveryCommandCompletesWithin33Steps : State.reset.phase = .idle := by decide

theorem witness_ScanProgress : State.reset.phase = .idle ∧ 0 ≤ 32 ∧ 32 ≤ 32 := by decide

theorem witness_KernProgress :
    (0x80000000#32 ≠ 0#32) ∧ State.reset.phase = .idle ∧ 32 ≤ popcount 0xFFFFFFFF#32 ∧ 0 ≤ popcount 0#32 := by decide

theorem witness_LutProgress : State.reset.phase = .idle ∧ 0 ≤ 4 ∧ 4 ≤ 4 := by decide

theorem witness_ParProgress :
    State.reset.phase = .idle ∧ (0 ≤ 5 ∧ 31 < 32 / 2 ^ 0) ∧ (5 ≤ 5 ∧ 0 < 32 / 2 ^ 5) := by decide

theorem witness_TheFourVariantsAgree : State.reset.phase = .idle := by decide

theorem witness_CountsObeyTheBitIdentities : State.reset.phase = .idle := by decide

theorem witness_TheAbstractEngineHasTheSameHistories : State.reset.phase = .idle := by decide

theorem witness_LeftoverElementsAreNeverSeen :
    let s := setAcc 9#6 (setWork 7#32 State.reset)
    s.phase = .idle ∧ State.reset.phase = .idle ∧ s.history = State.reset.history ∧ s.edges = State.reset.edges := by
  decide

/-! ### Hypotheses that are met: the invariant -/

/-- SCAN of 11 after three iterations (41_bitwise_scan.md R136 row 3). -/
theorem inv_midway_scan : Inv (midway 0x00000000B#34 1#32 2#6 3#6) :=
  ⟨by decide, 0x00000000B#34, by decide, by decide, 3, by decide, by decide, by decide, by decide⟩

/-- KERN of 11 after two iterations (42_kernighan.md R155 row 2). -/
theorem inv_midway_kern : Inv (midway 0x10000000B#34 8#32 2#6 0#6) :=
  ⟨by decide, 0x10000000B#34, by decide, by decide, 2, by decide, by decide, 8#32, by decide, by decide⟩

/-- LUT of 0x12345678 after the last iteration (43_lut.md R176 row 4). -/
theorem inv_midway_lut : Inv (midway 0x212345678#34 0#32 13#6 4#6) :=
  ⟨by decide, 0x212345678#34, by decide, by decide, 4, by decide, by decide, by decide, by decide⟩

/-- PAR of 0x12345678 after the last stage (44_parallel_reduction.md R197 row 5). -/
theorem inv_midway_par : Inv (midway 0x312345678#34 0xD#32 0#6 5#6) :=
  ⟨by decide, 0x312345678#34, by decide, by decide, 5, by decide, by decide, by decide, 0xD#32, by decide,
    show ∀ p, p < 1 → lane 0xD#32 32 p = bitCount 0x12345678#32 (p * 32) 32 by decide⟩

/-- A response waiting (R110). -/
theorem inv_waiting : Inv (waiting 0x2DEADBEEF#34 24#6) :=
  ⟨by decide, 0x2DEADBEEF#34, by decide, by decide, by decide⟩

/-- A response taken. -/
theorem inv_taken : Inv (taken 0x98#8 (waiting 0x2DEADBEEF#34 24#6)) := ⟨by decide, rfl⟩

theorem witness_EveryStepKeepsTheInvariant :
    Inv (midway 0x312345678#34 0xD#32 0#6 5#6) ∧
    step (midway 0x312345678#34 0xD#32 0#6 5#6) = .next (complete 13#6 (midway 0x312345678#34 0xD#32 0#6 5#6)) :=
  ⟨inv_midway_par, rfl⟩

theorem witness_TheMachineNeverStops : Inv (midway 0x10000000B#34 8#32 2#6 0#6) := inv_midway_kern

theorem witness_ElementsHoldValuesWhereRead :
    (Inv (midway 0x212345678#34 0#32 13#6 4#6) ∧ (midway 0x212345678#34 0#32 13#6 4#6).phase = .busy) ∧
    (Inv (waiting 0x2DEADBEEF#34 24#6) ∧ (waiting 0x2DEADBEEF#34 24#6).phase = .done ∧
      (edgeNow (waiting 0x2DEADBEEF#34 24#6)).rst = false ∧
      step (waiting 0x2DEADBEEF#34 24#6) = .next (waiting 0x2DEADBEEF#34 24#6)) :=
  ⟨⟨inv_midway_lut, by decide⟩, inv_waiting, by decide, by decide, rfl⟩

theorem witness_ResponsesAnswerTheLastCommand :
    Inv (taken 0x98#8 (waiting 0x2DEADBEEF#34 24#6)) ∧
    (taken 0x98#8 (waiting 0x2DEADBEEF#34 24#6)).history = [.reset, .issue 0x2DEADBEEF#34] ++ .resp 0x98#8 :: [] :=
  ⟨inv_taken, by decide⟩

theorem witness_CountsAreInRange :
    Inv (taken 0x98#8 (waiting 0x2DEADBEEF#34 24#6)) ∧
    (taken 0x98#8 (waiting 0x2DEADBEEF#34 24#6)).history = [.reset, .issue 0x2DEADBEEF#34] ++ .resp 0x98#8 :: [] :=
  ⟨inv_taken, by decide⟩

theorem witness_EveryCommandIsAnswered :
    Inv (midway 0x00000000B#34 1#32 2#6 3#6) ∧ (midway 0x00000000B#34 1#32 2#6 3#6).phase = .busy ∧
    pending (midway 0x00000000B#34 1#32 2#6 3#6).history = some 0x00000000B#34 ∧
    (∀ e ∈ (midway 0x00000000B#34 1#32 2#6 3#6).edges, e.rst = false) :=
  ⟨inv_midway_scan, by decide, by decide, by decide⟩

theorem witness_TheEngineWaitsForTheHost :
    let s := driven [offerEdge 5#34] (waiting 0#34 0#6)
    let u := driven [takeEdge] State.reset
    (s.phase = .done ∧ ∀ e ∈ s.edges, e.rst = false ∧ e.respReady = false) ∧
    (u.phase = .idle ∧ ∀ e ∈ u.edges, e.rst = false ∧ e.cmdValid = false) := by decide

end Sys2Proof.Tests
end

section
/-! PROOFS of the family `10_state.md`: the handshake ports (R33, R34). -/

namespace Sys2Proof.Machine

/-- R34: while a response is offered, `resp_data` is the response word of `var` and `result`. -/
theorem respData_of_respValid {rst : Bool} {s : State} {v : VarCode} {k : Count} (h : respValid rst s = true)
    (hv : s.var = some v) (hk : s.result = some k) : respData rst s = some (respWord v k) := by
  simp [respData, h, hv, hk]

/-- R34: while no response is offered, nothing is observed on `resp_data`. -/
theorem respData_eq_none {rst : Bool} {s : State} (h : respValid rst s = false) : respData rst s = none := by
  simp [respData, h]

/-- Settles O5: each port by its own lemma, and the response word is `{var, result}` by definition. -/
theorem handshakePortsFollowPhase : Obligations.HandshakePortsFollowPhase := fun _ _ =>
  ⟨cmdReady_eq_true, respValid_eq_true, fun _ _ => respData_of_respValid, respData_eq_none⟩

end Sys2Proof.Machine
end

section
/-! PROOFS of the family `20_memory.md`: the LUT ROM (R51, R54). -/

namespace Sys2Proof.Machine

/-- R51: the ROM is a table of literals, so this is checked entry by entry. -/
theorem lutRead_toNat : ∀ b : Byte, (lutRead b).toNat = bitCount b 0 8 := by decide

/-- The recursive bit-count identity of R51: a byte's bits are its lowest one and those above it. -/
theorem bitCount_byte_eq_shift_add_lowest (b : Byte) :
    bitCount b 0 8 = bitCount (b >>> 1) 0 8 + (b.getLsbD 0).toNat := by
  have hshift : bitCount (b >>> 1) 0 8 = bitCount b 1 8 := bitCount_shift b 1 0 8
  have hsplit : bitCount b 0 8 + bitCount b 8 1 = bitCount b 0 1 + bitCount b 1 8 :=
    (bitCount_add b 0 8 1).symm.trans (bitCount_add b 0 1 8)
  have habove : bitCount b 8 1 = 0 := bitCount_above b (Nat.le_refl 8) 1
  have hlowest : bitCount b 0 1 = (b.getLsbD 0).toNat := by simp [bitCount_succ, bitCount_zero]
  omega

/-- Settles O24: the ROM holds bit counts, and bit counts obey the source's recurrence. -/
theorem lutRomMeetsItsChecks : Obligations.LutRomMeetsItsChecks := by
  refine ⟨by decide, by decide, fun b _ => ?_⟩
  rw [lutRead_toNat, lutRead_toNat]
  exact bitCount_byte_eq_shift_add_lowest b

end Sys2Proof.Machine
end

section
/-! PROOFS of the family `30_encoding.md`: the decoder, the opcode map and the worked encodings (R71, R74, R75, R79). -/

namespace Sys2Proof

open Machine

/-- R74: bits [33:32] alone choose the variant, and bits [31:0] are its operand. -/
theorem decode_of_cmdVariant {c : CmdWord} {v : Variant} (h : cmdVariant c = variantCode v) :
    decode c = commandOf v (cmdOperand c) := by
  rw [decode_eq_commandOf, h, variantOf_variantCode]

/-- Settles O27: each VARIANT value is its variant's code. -/
theorem decodingGoesByTheVariantBits : Obligations.DecodingGoesByTheVariantBits := fun _ =>
  ⟨decode_of_cmdVariant (v := .scan), decode_of_cmdVariant (v := .kern), decode_of_cmdVariant (v := .lut),
    decode_of_cmdVariant (v := .par)⟩

theorem variantOf_eq_iff {c : VarCode} {v : Variant} : variantOf c = v ↔ c = variantCode v :=
  ⟨fun h => by rw [← h, variantCode_variantOf], fun h => by rw [h, variantOf_variantCode]⟩

/-- A command of the variant `v` is what `decode` gives exactly where VARIANT holds the code of `v`. -/
theorem exists_decode_eq_commandOf_iff {c : CmdWord} {v : Variant} :
    (∃ n, decode c = commandOf v n) ↔ cmdVariant c = variantCode v := by
  constructor
  · rintro ⟨n, hn⟩
    rw [decode_eq_commandOf] at hn
    have hvariant : variantOf (cmdVariant c) = v := by simpa using congrArg Instr.variant hn
    exact variantOf_eq_iff.1 hvariant
  · exact fun h => ⟨cmdOperand c, decode_of_cmdVariant h⟩

/-- R75: a match value is its variant's code over a zero operand. -/
theorem cmdMatch_eq_cmdWord (v : Variant) : cmdMatch v = cmdWord (variantCode v) 0#32 := by
  cases v <;> rfl

/-- The mask keeps VARIANT and clears OPERAND, so it compares VARIANT alone. -/
theorem and_cmdMask_eq_cmdMatch_iff {c : CmdWord} {v : Variant} :
    c &&& cmdMask = cmdMatch v ↔ cmdVariant c = variantCode v := by
  have hmasked : c &&& cmdMask = cmdWord (cmdVariant c) 0#32 := by
    simpa only [cmdWord_fields] using Laws.OpcodeMap.masked (cmdVariant c) (cmdOperand c)
  rw [hmasked, cmdMatch_eq_cmdWord]
  exact ⟨fun h => by simpa using congrArg cmdVariant h, fun h => by rw [h]⟩

/-- R75 for one row of the opcode map: its mask and match hold exactly of the words of its variant's commands. -/
theorem and_cmdMask_eq_cmdMatch_iff_exists_decode (c : CmdWord) (v : Variant) :
    c &&& cmdMask = cmdMatch v ↔ ∃ n, decode c = commandOf v n :=
  and_cmdMask_eq_cmdMatch_iff.trans exists_decode_eq_commandOf_iff.symm

/-- Settles O28: the four rows of the opcode map are the four variants' match values under one mask. -/
theorem maskAndMatchPickTheVariant : Obligations.MaskAndMatchPickTheVariant := fun c =>
  ⟨and_cmdMask_eq_cmdMatch_iff_exists_decode c .scan, and_cmdMask_eq_cmdMatch_iff_exists_decode c .kern,
    and_cmdMask_eq_cmdMatch_iff_exists_decode c .lut, and_cmdMask_eq_cmdMatch_iff_exists_decode c .par⟩

/-- A command is read back from its own word (R70, R71). -/
@[simp] theorem decode_encode (i : Instr) : decode (encode i) = i := by
  have hfields : decode (encode i) = commandOf i.variant i.operand := by
    simp [decode_eq_commandOf, encode]
  rw [hfields]
  cases i <;> rfl

/-- Settles O30: the words and the six runs are literals of R79 to be evaluated; the decoding follows from the
encoding. -/
theorem workedEncodingsAndResponses : Obligations.WorkedEncodingsAndResponses := by
  intro row hrow
  have hword : encode row.1 = row.2.1 := by revert row; decide
  have hrun : (nextOf (wholeCommand row.1 State.reset)).map (·.history) =
      some [.reset, .issue row.2.1, .resp row.2.2] := by revert row; decide
  exact ⟨hword, hword ▸ decode_encode row.1, hrun⟩

end Sys2Proof
end

section
/-! PROOFS of the family `40_command_interface.md`: one iteration of each variant, from the elements that hold after
`j` of them to those that hold after `j + 1`, and its completion (R131, R151, R171, R191). -/

namespace Sys2Proof.Machine

/-- What every engine iteration leaves alone: all but `work`, `acc` and `idx` (R104). -/
structure KeepsPorts (s t : State) : Prop where
  phase : t.phase = s.phase
  var : t.var = s.var
  result : t.result = s.result
  history : t.history = s.history
  edges : t.edges = s.edges

theorem KeepsPorts.refl (s : State) : KeepsPorts s s := ⟨rfl, rfl, rfl, rfl, rfl⟩

theorem KeepsPorts.trans {s t u : State} (h : KeepsPorts s t) (h' : KeepsPorts t u) : KeepsPorts s u :=
  ⟨h'.phase.trans h.phase, h'.var.trans h.var, h'.result.trans h.result, h'.history.trans h.history,
    h'.edges.trans h.edges⟩

/-- Where a command of variant `v` on `n` stands after `j` iterations. -/
def progressAt (v : Variant) (n : Word) (j : Nat) (s : State) : Prop :=
  match v with
  | .scan => scanAt n j s
  | .kern => kernAt n j s
  | .lut => lutAt n j s
  | .par => parAt n j s

/-! ### SCAN -/

theorem toNat_extractLsb'_one {w : Nat} (n : BitVec w) (j : Nat) :
    (n.extractLsb' j 1).toNat = (n.getLsbD j).toNat := by
  rw [BitVec.extractLsb'_toNat, BitVec.getLsbD, Nat.toNat_testBit, Nat.shiftRight_eq_div_pow]

theorem lowBit_ushiftRight (n : Word) (j : Nat) : lowBit (n >>> j) = BitVec.ofNat 6 (n.getLsbD j).toNat := by
  rw [lowBit, ← BitVec.ofNat_toNat, toNat_extractLsb'_one, BitVec.getLsbD_ushiftRight, Nat.add_zero]

theorem scanStep_of_scanAt {n : Word} {j : Nat} {s : State} (h : scanAt n j s) (hj : j < 32) :
    ∃ t, scanStep s = .next t ∧ KeepsPorts s t ∧ scanAt n (j + 1) t := by
  obtain ⟨hidx, hwork, hacc⟩ := h
  have hne : BitVec.ofNat 6 j ≠ Config.scanIters := by simp [Config.scanIters, ← BitVec.toNat_inj]; omega
  refine ⟨_, scanStep_iterate hidx hne hacc hwork, ⟨rfl, rfl, rfl, rfl, rfl⟩, ?_, ?_, ?_⟩
  · simp [BitVec.ofNat_add]
  · simp [BitVec.shiftRight_add]
  · simp [lowBit_ushiftRight, bitCount_succ, BitVec.ofNat_add]

theorem scanStep_completes {n : Word} {s : State} (h : scanAt n 32 s) :
    scanStep s = .next (complete (BitVec.ofNat 6 (popcount n)) s) := by
  obtain ⟨hidx, -, hacc⟩ := h
  exact scanStep_complete hidx hacc

/-! ### KERN -/

theorem kernStep_of_kernAt {n : Word} {j : Nat} {s : State} (h : kernAt n j s) (hj : j < popcount n) :
    ∃ t, kernStep s = .next t ∧ KeepsPorts s t ∧ kernAt n (j + 1) t := by
  obtain ⟨hidx, hacc, w, hwork, hcount⟩ := h
  have hne : w ≠ 0#32 := by
    rintro rfl
    rw [popcount_zero] at hcount
    omega
  have hclear := popcount_clearLowest w hne
  exact ⟨_, kernStep_iterate hwork hne hacc, ⟨rfl, rfl, rfl, rfl, rfl⟩, hidx, by simp [BitVec.ofNat_add],
    clearLowest w, rfl, by omega⟩

theorem kernStep_completes {n : Word} {s : State} (h : kernAt n (popcount n) s) :
    kernStep s = .next (complete (BitVec.ofNat 6 (popcount n)) s) := by
  obtain ⟨-, hacc, w, hwork, hcount⟩ := h
  obtain rfl : w = 0#32 := (popcount_eq_zero w).1 (by omega)
  exact kernStep_complete hwork hacc

/-! ### LUT -/

theorem lutSum_succ (n : Word) (j : Nat) :
    lutSum n (j + 1) = lutSum n j + (lutRead (n.extractLsb' (8 * j) 8)).toNat := by
  simp [lutSum, List.range_succ]

/-- R172: the entries looked up so far make up the count of the bytes below. -/
theorem lutSum_eq_bitCount (n : Word) (j : Nat) : lutSum n j = bitCount n 0 (8 * j) := by
  induction j with
  | zero => rfl
  | succ j ih => rw [lutSum_succ, ih, lutRead_toNat, bitCount_extract, Nat.mul_succ, bitCount_add, Nat.zero_add]

theorem lutCount_ushiftRight (n : Word) (j : Nat) :
    lutCount (n >>> (8 * j)) = BitVec.ofNat 6 (lutRead (n.extractLsb' (8 * j) 8)).toNat := by
  have hbyte : lowByte (n >>> (8 * j)) = n.extractLsb' (8 * j) 8 := by
    apply BitVec.eq_of_getLsbD_eq
    intro i hi
    simp [lowByte, hi]
  rw [lutCount, hbyte, BitVec.ofNat_toNat]

theorem lutStep_of_lutAt {n : Word} {j : Nat} {s : State} (h : lutAt n j s) (hj : j < 4) :
    ∃ t, lutStep s = .next t ∧ KeepsPorts s t ∧ lutAt n (j + 1) t := by
  obtain ⟨hidx, hwork, hacc⟩ := h
  have hne : BitVec.ofNat 6 j ≠ Config.lutLookups := by simp [Config.lutLookups, ← BitVec.toNat_inj]; omega
  refine ⟨_, lutStep_iterate hidx hne hacc hwork, ⟨rfl, rfl, rfl, rfl, rfl⟩, ?_, ?_, ?_⟩
  · simp [BitVec.ofNat_add]
  · simp [BitVec.shiftRight_add, Nat.mul_succ]
  · simp [lutCount_ushiftRight, lutSum_succ, BitVec.ofNat_add]

theorem lutStep_completes {n : Word} {s : State} (h : lutAt n 4 s) :
    lutStep s = .next (complete (BitVec.ofNat 6 (popcount n)) s) := by
  obtain ⟨hidx, -, hacc⟩ := h
  rw [lutSum_eq_bitCount] at hacc
  exact lutStep_complete hidx hacc

/-! ### PAR -/

/-- The mask of row `j` (R190): the low halves of the lanes of width `2 * 2 ^ j`. -/
def rowMask (j : Nat) : Word := BitVec.ofNat 32 (halfMask (2 ^ j) (32 / 2 ^ (j + 1)))

theorem parStage_ofNat : ∀ j < 5, parStage (BitVec.ofNat 6 j) = some (2 ^ j, rowMask j) := by decide

/-- R194: a stage adds the lanes of `work` in pairs. -/
theorem lane_laneSum_rowMask (w : Word) {j p : Nat} (hj : j < 5) (hp : p < 32 / 2 ^ (j + 1)) :
    lane (laneSum (2 ^ j) (rowMask j) w) (2 * 2 ^ j) p = lane w (2 ^ j) (2 * p) + lane w (2 ^ j) (2 * p + 1) := by
  have hmask : ∀ j < 5, (rowMask j).toNat = halfMask (2 ^ j) (32 / 2 ^ (j + 1)) := by decide
  have hwidth : ∀ j < 5, 2 * 2 ^ j * (32 / 2 ^ (j + 1)) = 32 := by decide
  have hpos := Nat.two_pow_pos j
  simp only [lane_eq_digit]
  rw [laneSum_toNat _ _ _ _ hpos (hmask j hj) (hwidth j hj), digit_halfSum _ _ _ _ hpos hp]

/-- R192: a stage counts fields twice as wide as the stage before it. -/
theorem lanesCount_laneSum {n w : Word} {j : Nat} (h : lanesCount n j w) (hj : j < 5) :
    lanesCount n (j + 1) (laneSum (2 ^ j) (rowMask j) w) := by
  intro p hp
  have hlanes : ∀ j < 5, 32 / 2 ^ j = 2 * (32 / 2 ^ (j + 1)) := by decide
  have hhalves := hlanes j hj
  have hstart : p * (2 * 2 ^ j) = 2 * p * 2 ^ j := by ring
  have hmiddle : 2 * p * 2 ^ j + 2 ^ j = (2 * p + 1) * 2 ^ j := by ring
  rw [Nat.pow_succ', lane_laneSum_rowMask w hj hp, h (2 * p) (by omega), h (2 * p + 1) (by omega), hstart,
    Nat.two_mul (2 ^ j), bitCount_add, hmiddle]

theorem lanesCount_zero (n : Word) : lanesCount n 0 n := by
  intro p _
  rw [lane, Nat.pow_zero, Nat.mul_one, toNat_extractLsb'_one, bitCount_succ, bitCount_zero, Nat.zero_add, Nat.add_zero]

/-- After the last stage the one lane is the whole word. -/
theorem toNat_of_lanesCount_five {n w : Word} (h : lanesCount n 5 w) : w.toNat = popcount n := by
  simpa [lane, popcount, BitVec.extractLsb'_eq_self] using h 0 (by decide)

theorem parStep_of_parAt {n : Word} {j : Nat} {s : State} (h : parAt n j s) (hj : j < 5) :
    ∃ t, parStep s = .next t ∧ KeepsPorts s t ∧ parAt n (j + 1) t := by
  obtain ⟨hidx, hacc, w, hwork, hlanes⟩ := h
  have hne : BitVec.ofNat 6 j ≠ Config.parStages := by simp [Config.parStages, ← BitVec.toNat_inj]; omega
  exact ⟨_, parStep_iterate hidx hne hwork (parStage_ofNat j hj), ⟨rfl, rfl, rfl, rfl, rfl⟩,
    by simp [BitVec.ofNat_add], hacc, _, rfl, lanesCount_laneSum hlanes hj⟩

theorem parStep_completes {n : Word} {s : State} (h : parAt n 5 s) :
    parStep s = .next (complete (BitVec.ofNat 6 (popcount n)) s) := by
  obtain ⟨hidx, -, w, hwork, hlanes⟩ := h
  have hcount : lowCount w = BitVec.ofNat 6 (popcount n) := by
    rw [← toNat_of_lanesCount_five hlanes]
    apply BitVec.eq_of_toNat_eq
    simp [lowCount]
  rw [← hcount]
  exact parStep_complete hidx hwork

/-! ### Any variant -/

/-- ISSUE loads what every variant starts from (R101). -/
theorem progressAt_issued (v : Variant) (c : CmdWord) (s : State) : progressAt v (cmdOperand c) 0 (issued c s) := by
  cases v with
  | scan => exact ⟨rfl, by simp, rfl⟩
  | kern => exact ⟨rfl, rfl, _, rfl, Nat.zero_add _⟩
  | lut => exact ⟨rfl, by simp, rfl⟩
  | par => exact ⟨rfl, rfl, _, rfl, lanesCount_zero _⟩

theorem variantStep_iterates {v : Variant} {n : Word} {j : Nat} {s : State} (h : progressAt v n j s)
    (hj : j + 1 < stepsNeeded v n) : ∃ t, variantStep v s = .next t ∧ KeepsPorts s t ∧ progressAt v n (j + 1) t := by
  cases v with
  | scan => exact scanStep_of_scanAt h (Nat.lt_of_succ_lt_succ hj)
  | kern => exact kernStep_of_kernAt h (Nat.lt_of_succ_lt_succ hj)
  | lut => exact lutStep_of_lutAt h (Nat.lt_of_succ_lt_succ hj)
  | par => exact parStep_of_parAt h (Nat.lt_of_succ_lt_succ hj)

theorem variantStep_completes {v : Variant} {n : Word} {j : Nat} {s : State} (h : progressAt v n j s)
    (hj : j + 1 = stepsNeeded v n) : variantStep v s = .next (complete (BitVec.ofNat 6 (popcount n)) s) := by
  cases v with
  | scan =>
    obtain rfl : j = 32 := by simpa [stepsNeeded] using hj
    exact scanStep_completes h
  | kern =>
    have hlast : j = popcount n := by simpa [stepsNeeded] using hj
    rw [hlast] at h
    exact kernStep_completes h
  | lut =>
    obtain rfl : j = 4 := by simpa [stepsNeeded] using hj
    exact lutStep_completes h
  | par =>
    obtain rfl : j = 5 := by simpa [stepsNeeded] using hj
    exact parStep_completes h

end Sys2Proof.Machine
end

section
/-! PROOFS of the family `40_command_interface.md`: a command in flight, its engine steps and its completion (R101,
R104, R106, R108), and the abstraction of R107. -/

namespace Sys2Proof.Machine

/-- An engine in BUSY with a command of variant `v` on `n` in flight, `j` iterations after its ISSUE. -/
structure Running (v : Variant) (n : Word) (j : Nat) (s : State) : Prop where
  busy : s.phase = .busy
  var : s.var = some (variantCode v)
  progress : progressAt v n j s
  within : j < stepsNeeded v n

theorem stepsNeeded_pos (v : Variant) (n : Word) : 0 < stepsNeeded v n := by
  cases v <;> simp [stepsNeeded]

theorem stepsNeeded_le (v : Variant) (n : Word) : stepsNeeded v n ≤ 33 := by
  have hcount := popcount_le n
  cases v <;> simp only [stepsNeeded] <;> omega

theorem running_issued (c : CmdWord) (s : State) :
    Running (variantOf (cmdVariant c)) (cmdOperand c) 0 (issued c s) :=
  ⟨rfl, by simp, progressAt_issued _ c s, stepsNeeded_pos _ _⟩

theorem engineStep_of_running {v : Variant} {n : Word} {j : Nat} {s : State} (h : Running v n j s) :
    engineStep s = variantStep v s := by
  rw [engineStep_busy h.busy h.var, variantOf_variantCode]

/-- Before its last step a command in flight iterates. -/
theorem engineStep_iterates {v : Variant} {n : Word} {j : Nat} {s : State} (h : Running v n j s)
    (hj : j + 1 < stepsNeeded v n) : ∃ t, engineStep s = .next t ∧ KeepsPorts s t ∧ Running v n (j + 1) t := by
  obtain ⟨t, hstep, hkeep, hprogress⟩ := variantStep_iterates h.progress hj
  exact ⟨t, (engineStep_of_running h).trans hstep, hkeep, hkeep.phase.trans h.busy, hkeep.var.trans h.var,
    hprogress, hj⟩

/-- Its last step completes it with the count of its operand. -/
theorem engineStep_completes {v : Variant} {n : Word} {j : Nat} {s : State} (h : Running v n j s)
    (hj : j + 1 = stepsNeeded v n) : engineStep s = .next (complete (BitVec.ofNat 6 (popcount n)) s) :=
  (engineStep_of_running h).trans (variantStep_completes h.progress hj)

/-- R106: while fewer than `stepsNeeded` steps are taken the command stays in flight. -/
theorem engineSteps_running {v : Variant} {n : Word} {i : Nat} {s : State} (h : Running v n i s) (j : Nat)
    (hj : i + j < stepsNeeded v n) : ∃ t, engineSteps j s = .next t ∧ KeepsPorts s t ∧ Running v n (i + j) t := by
  induction j with
  | zero => exact ⟨s, rfl, .refl s, h⟩
  | succ j ih =>
    obtain ⟨t, hsteps, hkeep, hrun⟩ := ih (by omega)
    obtain ⟨u, hstep, hkeep', hrun'⟩ := engineStep_iterates hrun hj
    refine ⟨u, ?_, hkeep.trans hkeep', hrun'⟩
    rw [engineSteps_add, hsteps, andThen_next, engineSteps_succ, hstep, andThen_next, engineSteps_zero]

/-- R106: the step that is left then completes it. -/
theorem engineSteps_complete {v : Variant} {n : Word} {i : Nat} {s : State} (h : Running v n i s) :
    ∃ t, KeepsPorts s t ∧
      engineSteps (stepsNeeded v n - i) s = .next (complete (BitVec.ofNat 6 (popcount n)) t) := by
  have hwithin := h.within
  obtain ⟨t, hsteps, hkeep, hrun⟩ := engineSteps_running h (stepsNeeded v n - i - 1) (by omega)
  have hlast : stepsNeeded v n - i = stepsNeeded v n - i - 1 + 1 := by omega
  refine ⟨t, hkeep, ?_⟩
  rw [hlast, engineSteps_add, hsteps, andThen_next, engineSteps_succ, engineStep_completes hrun (by omega),
    andThen_next, engineSteps_zero]

end Sys2Proof.Machine
end

section
/-! PROOFS of the family `40_command_interface.md`: the engine whose one STEP goes from BUSY to DONE has the same
histories (R107). -/

namespace Sys2Proof

/-- No bit of a command word is dropped (R70, R74). -/
@[simp] theorem encode_decode (c : CmdWord) : encode (decode c) = c := by
  rw [decode_eq_commandOf, encode_commandOf, variantCode_variantOf, cmdWord_fields]

namespace Machine

theorem perform_issue (c : CmdWord) (s : State) : perform (.issue c) s = issue c s := by
  rw [perform, exec_eq_issue, encode_decode]

/-! ### Lists of actions -/

theorem runActions_append (act : Action → State → Host.Outcome State Fault Refusal) (as bs : List Action) (s : State) :
    runActions act (as ++ bs) s = andThen (runActions act as s) (runActions act bs) := by
  induction as generalizing s with
  | nil => rfl
  | cons a as ih =>
    rw [List.cons_append, runActions, runActions, andThen_assoc]
    exact congrArg _ (funext ih)

theorem runActions_single (act : Action → State → Host.Outcome State Fault Refusal) (a : Action) (s : State) :
    runActions act [a] s = act a s := by
  rw [runActions]
  cases act a s <;> rfl

theorem runActions_replicate_step (k : Nat) (s : State) :
    runActions perform (List.replicate k .step) s = engineSteps k s := by
  induction k generalizing s with
  | zero => rfl
  | succ k ih =>
    rw [List.replicate_succ, runActions, engineSteps_succ]
    exact congrArg _ (funext ih)

/-- A simulation, packaged once: if some actions of one engine answer every action of another and keep the relation
`R`, then some list of actions of the one answers every list of the other. -/
theorem runActions_simulates {act act' : Action → State → Host.Outcome State Fault Refusal} {R : State → State → Prop}
    (hact : ∀ a x y x', R x y → act a x = .next x' → ∃ bs y', runActions act' bs y = .next y' ∧ R x' y')
    (as : List Action) {x y x' : State} (hR : R x y) (hrun : runActions act as x = .next x') :
    ∃ bs y', runActions act' bs y = .next y' ∧ R x' y' := by
  induction as generalizing x y with
  | nil =>
    injection hrun with hx
    exact ⟨[], y, rfl, hx ▸ hR⟩
  | cons a as ih =>
    obtain ⟨x₁, hfirst, hrest⟩ := andThen_eq_next.1 hrun
    obtain ⟨bs, y₁, hbs, hR₁⟩ := hact a x y x₁ hR hfirst
    obtain ⟨cs, y', hcs, hR'⟩ := ih hR₁ hrest
    exact ⟨bs ++ cs, y', by rw [runActions_append, hbs, andThen_next, hcs], hR'⟩

/-! ### The relation between the two engines -/

/-- The full engine `s` and the abstract engine `a` stand at the same point of one history: both in IDLE, or with the
same command in flight (however many iterations the full engine has done of it), or with the same response waiting. -/
inductive SamePoint (s a : State) : Prop where
  | idle (hs : s.phase = .idle) (ha : a.phase = .idle) (hhist : s.history = a.history)
  | busy (v : Variant) (n : Word) (j : Nat) (hs : Running v n j s) (ha : a.phase = .busy)
      (hvar : a.var = some (variantCode v)) (hwork : a.work = some n) (hhist : s.history = a.history)
  | done (v : VarCode) (k : Count) (hs : s.phase = .done) (hsv : s.var = some v) (hsk : s.result = some k)
      (ha : a.phase = .done) (hav : a.var = some v) (hak : a.result = some k) (hhist : s.history = a.history)

theorem SamePoint.history_eq {s a : State} (h : SamePoint s a) : s.history = a.history := by
  cases h <;> assumption

theorem SamePoint.phase_eq {s a : State} (h : SamePoint s a) : s.phase = a.phase := by
  cases h with
  | idle hs ha => rw [hs, ha]
  | busy _ _ _ hs ha => rw [hs.busy, ha]
  | done _ _ hs _ _ ha => rw [hs, ha]

/-- ISSUE, TAKE and RESET look at the phase, `var` and `result` alone, so they keep the two engines together. -/
theorem SamePoint.perform_host {s a : State} (h : SamePoint s a) (act : Action) (hne : act ≠ .step) :
    ∃ s' a', perform act s = .next s' ∧ perform act a = .next a' ∧ SamePoint s' a' := by
  cases act with
  | step => exact absurd rfl hne
  | reset =>
    exact ⟨_, _, rfl, rfl, .idle rfl rfl (by simp [h.history_eq])⟩
  | issue c =>
    simp only [perform_issue]
    by_cases hidle : s.phase = .idle
    · exact ⟨_, _, issue_idle hidle, issue_idle (h.phase_eq ▸ hidle),
        .busy _ _ 0 (running_issued c s) rfl (by simp) rfl (by simp [h.history_eq])⟩
    · exact ⟨_, _, issue_waits hidle, issue_waits (h.phase_eq ▸ hidle), h⟩
  | take =>
    cases h with
    | idle hs ha hhist =>
      exact ⟨s, a, take_waits (by simp [hs]), take_waits (by simp [ha]), .idle hs ha hhist⟩
    | busy v n j hs ha hvar hwork hhist =>
      exact ⟨s, a, take_waits (by simp [hs.busy]), take_waits (by simp [ha]), .busy v n j hs ha hvar hwork hhist⟩
    | done v k hs hsv hsk ha hav hak hhist =>
      exact ⟨_, _, take_done hs hsv hsk, take_done ha hav hak,
        .idle rfl rfl (by simp [hhist])⟩

/-! ### The abstract engine's STEP -/

theorem abstractPerform_host {act : Action} (hne : act ≠ .step) (s : State) :
    abstractPerform act s = perform act s := by
  cases act with
  | step => exact absurd rfl hne
  | _ => rfl

theorem abstractPerform_step_busy {a : State} {n : Word} (ha : a.phase = .busy) (hwork : a.work = some n) :
    abstractPerform .step a = .next (complete (BitVec.ofNat 6 (popcount n)) a) := by
  simp [abstractPerform, ha, hwork]

theorem abstractPerform_step_waits {a : State} (ha : a.phase ≠ .busy) : abstractPerform .step a = .next a := by
  cases hp : a.phase <;> simp_all [abstractPerform]

/-! ### The simulation, both ways -/

/-- The abstract engine answers an iteration by doing nothing, and a completion by its one STEP. -/
theorem SamePoint.abstract_answers_step {s a s' : State} (h : SamePoint s a) (hstep : engineStep s = .next s') :
    ∃ bs a', runActions abstractPerform bs a = .next a' ∧ SamePoint s' a' := by
  by_cases hbusy : s.phase = .busy
  case neg =>
    obtain rfl : s = s' := by simpa [engineStep_waits hbusy] using hstep
    exact ⟨[], a, rfl, h⟩
  cases h with
  | idle hs => simp [hs] at hbusy
  | done _ _ hs => simp [hs] at hbusy
  | busy v n j hs ha hvar hwork hhist =>
    by_cases hlast : j + 1 = stepsNeeded v n
    · obtain rfl : complete _ s = s' := by simpa [engineStep_completes hs hlast] using hstep
      exact ⟨[.step], _, (runActions_single ..).trans (abstractPerform_step_busy ha hwork),
        .done (variantCode v) _ rfl hs.var rfl rfl hvar rfl hhist⟩
    · have hwithin := hs.within
      obtain ⟨t, ht, hkeep, hrun⟩ := engineStep_iterates hs (by omega)
      obtain rfl : t = s' := by simpa [ht] using hstep
      exact ⟨[], a, rfl, .busy v n (j + 1) hrun ha hvar hwork (hkeep.history.trans hhist)⟩

/-- The full engine answers the abstract engine's STEP by all the steps its command has left. -/
theorem SamePoint.full_answers_step {s a a' : State} (h : SamePoint s a)
    (hstep : abstractPerform .step a = .next a') :
    ∃ bs s', runActions perform bs s = .next s' ∧ SamePoint s' a' := by
  by_cases hbusy : a.phase = .busy
  case neg =>
    obtain rfl : a = a' := by simpa [abstractPerform_step_waits hbusy] using hstep
    exact ⟨[], s, rfl, h⟩
  cases h with
  | idle _ ha => simp [ha] at hbusy
  | done _ _ _ _ _ ha => simp [ha] at hbusy
  | busy v n j hs ha hvar hwork hhist =>
    obtain rfl : complete _ a = a' := by simpa [abstractPerform_step_busy ha hwork] using hstep
    obtain ⟨t, hkeep, hsteps⟩ := engineSteps_complete hs
    exact ⟨List.replicate (stepsNeeded v n - j) .step, _, (runActions_replicate_step ..).trans hsteps,
      .done (variantCode v) _ rfl (hkeep.var.trans hs.var) rfl rfl hvar rfl (hkeep.history.trans hhist)⟩

theorem SamePoint.abstract_answers (act : Action) (s a s' : State) (h : SamePoint s a)
    (hact : perform act s = .next s') : ∃ bs a', runActions abstractPerform bs a = .next a' ∧ SamePoint s' a' := by
  by_cases hne : act = .step
  · subst hne
    exact h.abstract_answers_step hact
  · obtain ⟨t, a', ht, ha', hsame⟩ := h.perform_host act hne
    obtain rfl : t = s' := by simpa [ht] using hact
    exact ⟨[act], a', by rw [runActions_single, abstractPerform_host hne, ha'], hsame⟩

theorem SamePoint.full_answers (act : Action) (a s a' : State) (h : SamePoint s a)
    (hact : abstractPerform act a = .next a') : ∃ bs s', runActions perform bs s = .next s' ∧ SamePoint s' a' := by
  by_cases hne : act = .step
  · subst hne
    exact h.full_answers_step hact
  · obtain ⟨s', t, hs', ht, hsame⟩ := h.perform_host act hne
    obtain rfl : t = a' := by simpa [abstractPerform_host hne, ht] using hact
    exact ⟨[act], s', by rw [runActions_single, hs'], hsame⟩

/-- Settles O41: each engine simulates the other through `SamePoint`, which holds of an IDLE state and itself and makes
the histories equal. -/
theorem theAbstractEngineHasTheSameHistories : Obligations.TheAbstractEngineHasTheSameHistories := by
  intro s h hidle
  have hstart : SamePoint s s := .idle hidle hidle rfl
  constructor
  · rintro ⟨acts, t, hrun, rfl⟩
    obtain ⟨bs, u, hu, hsame⟩ := runActions_simulates SamePoint.abstract_answers acts hstart hrun
    exact ⟨bs, u, hu, hsame.history_eq.symm⟩
  · rintro ⟨acts, t, hrun, rfl⟩
    obtain ⟨bs, u, hu, hsame⟩ :=
      runActions_simulates (R := fun a s => SamePoint s a) SamePoint.full_answers acts hstart hrun
    exact ⟨bs, u, hu, hsame.history_eq⟩

end Machine
end Sys2Proof
end

section
/-! PROOFS of the family `40_command_interface.md`: whole commands, from ISSUE to TAKE (R106, R108, R114), and the
identities of their counts (R112, R113). -/

namespace Sys2Proof

/-! ### Identities of POPCOUNT -/

/-- A count of at most 32 is not cut off at 6 bits. -/
@[simp] theorem toNat_ofNat_popcount (n : Word) : (BitVec.ofNat 6 (popcount n)).toNat = popcount n := by
  have hcount := popcount_le n
  rw [BitVec.toNat_ofNat]
  exact Nat.mod_eq_of_lt (by omega)

/-- R112. -/
theorem popcount_eq_shift_add_lowest (n : Word) : popcount n = popcount (n >>> 1) + (n.getLsbD 0).toNat := by
  have hlowest : bitCount n 0 1 = (n.getLsbD 0).toNat := by simp [bitCount_succ, bitCount_zero]
  rw [← bitCount_add_popcount_shift n 1, hlowest, Nat.add_comm]

/-- Every bit of a word is set in it or in its complement, and not in both. -/
theorem bitCount_add_bitCount_not {w : Nat} (n : BitVec w) {len : Nat} (h : len ≤ w) :
    bitCount n 0 len + bitCount (~~~n) 0 len = len := by
  induction len with
  | zero => rfl
  | succ len ih =>
    have hbit : (n.getLsbD len).toNat + ((~~~n).getLsbD len).toNat = 1 := by
      have hlt : len < w := h
      rw [BitVec.getLsbD_not]
      cases n.getLsbD len <;> simp [hlt]
    have hbelow := ih (by omega)
    rw [bitCount_succ, bitCount_succ, Nat.zero_add]
    omega

/-- R113. -/
theorem popcount_add_popcount_not (n : Word) : popcount n + popcount (~~~n) = 32 :=
  bitCount_add_bitCount_not n (Nat.le_refl 32)

theorem popcount_allOnes : popcount 0xFFFFFFFF#32 = 32 := by decide

/-- R111: only the word with every bit set has the greatest count. -/
theorem popcount_eq_32 (n : Word) : popcount n = 32 ↔ n = 0xFFFFFFFF#32 := by
  constructor
  · intro h
    have hsum := popcount_add_popcount_not n
    have hnot : ~~~n = 0#32 := (popcount_eq_zero _).1 (by omega)
    simpa using congrArg (~~~ ·) hnot
  · rintro rfl
    exact popcount_allOnes

/-! ### The fields of an encoded command -/

@[simp] theorem cmdVariant_encode (i : Instr) : cmdVariant (encode i) = variantCode i.variant :=
  cmdVariant_cmdWord _ _

@[simp] theorem cmdOperand_encode (i : Instr) : cmdOperand (encode i) = i.operand :=
  cmdOperand_cmdWord _ _

namespace Machine

/-! ### From ISSUE to DONE -/

theorem exec_idle (i : Instr) {s : State} (h : s.phase = .idle) : exec i s = .next (issued (encode i) s) := by
  rw [exec_eq_issue, issue_idle h]

theorem running_issued_encode (i : Instr) (s : State) : Running i.variant i.operand 0 (issued (encode i) s) := by
  simpa using running_issued (encode i) s

/-- R106: what the engine holds when a command has taken its steps. -/
theorem engineSteps_issued_encode (i : Instr) (s : State) : ∃ t, KeepsPorts (issued (encode i) s) t ∧
    engineSteps (stepsNeeded i.variant i.operand) (issued (encode i) s) =
      .next (complete (BitVec.ofNat 6 (popcount i.operand)) t) := by
  simpa using engineSteps_complete (running_issued_encode i s)

/-- Settles O33: a command in flight iterates until its last step, which completes it with its count. -/
theorem everyCommandReachesDone : Obligations.EveryCommandReachesDone := by
  refine ⟨fun i s hidle => ⟨_, exec_idle i hidle, fun j hj => ?_, ?_⟩, fun n => ⟨rfl, rfl, rfl, rfl⟩, ?_, ?_⟩
  · obtain ⟨u, hu, -, hrun⟩ := engineSteps_running (running_issued_encode i s) j (by omega)
    exact ⟨u, hu, hrun.busy⟩
  · obtain ⟨t, hkeep, hsteps⟩ := engineSteps_issued_encode i s
    refine ⟨_, _, hsteps, rfl, ?_, rfl, toNat_ofNat_popcount _, hkeep.history, hkeep.edges⟩
    rw [complete_var, hkeep.var, issued_var, cmdVariant_encode]
  · rw [stepsNeeded, popcount_zero]
  · rw [stepsNeeded, popcount_allOnes]

/-- Settles O34: the step count of every variant is bounded by 33, as no count is above 32. -/
theorem everyCommandCompletesWithin33Steps : Obligations.EveryCommandCompletesWithin33Steps := by
  refine ⟨fun i s hidle => ?_, stepsNeeded_le, fun n => rfl, by rw [stepsNeeded, popcount_allOnes]⟩
  obtain ⟨t, -, hsteps⟩ := engineSteps_issued_encode i s
  exact ⟨_, _, _, exec_idle i hidle, stepsNeeded_le _ _, hsteps, rfl⟩

/-! ### From ISSUE to TAKE -/

/-- The 33 steps of a whole command complete it: those it has no need of wait in DONE (R108, R238). -/
theorem engineSteps_max_issued_encode (i : Instr) (s : State) : ∃ t, KeepsPorts (issued (encode i) s) t ∧
    engineSteps Config.maxEngineSteps (issued (encode i) s) =
      .next (complete (BitVec.ofNat 6 (popcount i.operand)) t) := by
  obtain ⟨t, hkeep, hsteps⟩ := engineSteps_issued_encode i s
  have hsplit := Nat.add_sub_of_le (stepsNeeded_le i.variant i.operand)
  refine ⟨t, hkeep, ?_⟩
  rw [Config.maxEngineSteps, ← hsplit, engineSteps_add, hsteps, andThen_next, engineSteps_wait (by simp)]

/-- A whole command returns its VARIANT and the count of its operand, and leaves the engine IDLE. -/
theorem wholeCommand_idle (i : Instr) {s : State} (h : s.phase = .idle) :
    ∃ t, wholeCommand i s = .next t ∧ t.phase = .idle ∧ t.result = some (BitVec.ofNat 6 (popcount i.operand)) ∧
      t.history = s.history ++
        [.issue (encode i), .resp (respWord (variantCode i.variant) (BitVec.ofNat 6 (popcount i.operand)))] := by
  obtain ⟨t, hkeep, hsteps⟩ := engineSteps_max_issued_encode i s
  have hvar : t.var = some (variantCode i.variant) := by rw [hkeep.var, issued_var, cmdVariant_encode]
  refine ⟨taken (respWord (variantCode i.variant) (BitVec.ofNat 6 (popcount i.operand)))
    (complete (BitVec.ofNat 6 (popcount i.operand)) t), ?_, rfl, rfl, ?_⟩
  · rw [wholeCommand, exec_idle i h, andThen_next, hsteps, andThen_next]
    exact take_done rfl hvar rfl
  · rw [taken_history, complete_history, hkeep.history, issued_history, List.append_assoc, List.singleton_append]

/-- The same of the command of a variant, as statements name it. -/
theorem wholeCommand_commandOf (v : Variant) (n : Word) {s : State} (h : s.phase = .idle) :
    ∃ t, wholeCommand (commandOf v n) s = .next t ∧ t.phase = .idle ∧
      t.result = some (BitVec.ofNat 6 (popcount n)) ∧
      t.history = s.history ++
        [.issue (cmdWord (variantCode v) n), .resp (respWord (variantCode v) (BitVec.ofNat 6 (popcount n)))] := by
  simpa [encode_commandOf] using wholeCommand_idle (commandOf v n) h

/-- Settles O39: each of the four returns the count of the operand. -/
theorem theFourVariantsAgree : Obligations.TheFourVariantsAgree := by
  refine fun n s hidle => ⟨BitVec.ofNat 6 (popcount n), toNat_ofNat_popcount n, fun v => ?_⟩
  obtain ⟨t, hrun, hphase, -, hhistory⟩ := wholeCommand_commandOf v n hidle
  exact ⟨t, hrun, hphase, hhistory⟩

/-- Settles O40: the results of whole commands are counts, so they obey the identities of POPCOUNT. -/
theorem countsObeyTheBitIdentities : Obligations.CountsObeyTheBitIdentities := by
  refine ⟨popcount_eq_shift_add_lowest, popcount_add_popcount_not, fun n v v' s hidle => ?_⟩
  obtain ⟨t, ht, -, hcount, -⟩ := wholeCommand_commandOf v n hidle
  obtain ⟨u, hu, -, hshifted, -⟩ := wholeCommand_commandOf v' (n >>> 1) hidle
  obtain ⟨u', hu', -, hnot, -⟩ := wholeCommand_commandOf v' (~~~n) hidle
  refine ⟨t, u, u', _, _, _, ht, hcount, hu, hshifted, hu', hnot, ?_⟩
  simp only [toNat_ofNat_popcount]
  exact ⟨popcount_eq_shift_add_lowest n, popcount_add_popcount_not n⟩

end Machine
end Sys2Proof
end

section
/-! PROOFS of the family `40_command_interface.md`: the responses of a right history (R110, R111). -/

namespace Sys2Proof.Machine

/-- The rest of a right history is right after its first event. -/
theorem historyOk_tail {p : Option CmdWord} {e : Event} {rest : List Event} (h : historyOk p (e :: rest) = true) :
    historyOk (pendingAfter p e) rest = true := by
  cases e with
  | issue c => cases p <;> simp_all [historyOk, pendingAfter]
  | resp r => cases p <;> simp_all [historyOk, pendingAfter]
  | reset => cases p <;> exact h

theorem historyOk_resp {p : Option CmdWord} {r : RespWord} {rest : List Event}
    (h : historyOk p (.resp r :: rest) = true) : ∃ c, p = some c ∧ r = answerWord c := by
  cases p with
  | none => simp [historyOk] at h
  | some c => exact ⟨c, rfl, by simp_all [historyOk]⟩

theorem pendingAfter_eq_some {p : Option CmdWord} {e : Event} {c : CmdWord} (h : pendingAfter p e = some c) :
    e = .issue c := by
  cases e <;> simp_all [pendingAfter]

/-- In a right history the event before a Resp is the Issue it answers; at the very start it answers the command
pending before. -/
theorem resp_answers_of_historyOk {p : Option CmdWord} {before after : List Event} {r : RespWord}
    (h : historyOk p (before ++ .resp r :: after) = true) :
    (before = [] ∧ ∃ c, p = some c ∧ r = answerWord c) ∨ ∃ a c, before = a ++ [.issue c] ∧ r = answerWord c := by
  induction before generalizing p with
  | nil => exact .inl ⟨rfl, historyOk_resp h⟩
  | cons e before ih =>
    rcases ih (historyOk_tail h) with ⟨rfl, c, hc, hr⟩ | ⟨a, c, rfl, hr⟩
    · exact .inr ⟨[], c, by rw [pendingAfter_eq_some hc]; rfl, hr⟩
    · exact .inr ⟨e :: a, c, rfl, hr⟩

/-- R110: a Resp in a reachable state's history answers the command accepted directly before it. -/
theorem resp_answers {s : State} {before after : List Event} {r : RespWord} (hs : Inv s)
    (hhist : s.history = before ++ .resp r :: after) : ∃ a c, before = a ++ [.issue c] ∧ r = answerWord c := by
  obtain ⟨hok, -⟩ := hs
  rw [hhist] at hok
  rcases resp_answers_of_historyOk hok with ⟨-, c, hc, -⟩ | hanswer
  · cases hc
  · exact hanswer

theorem answerWord_variant (c : CmdWord) : (answerWord c).extractLsb' 6 2 = cmdVariant c :=
  respVariant_respWord _ _

theorem answerWord_count (c : CmdWord) : ((answerWord c).extractLsb' 0 6).toNat = popcount (cmdOperand c) := by
  rw [answerWord, respCount_respWord, toNat_ofNat_popcount]

/-- Settles O47: the Resp is the answer word of the Issue before it. -/
theorem responsesAnswerTheLastCommand : Obligations.ResponsesAnswerTheLastCommand := by
  intro s before after r hs hhist
  obtain ⟨a, c, hbefore, rfl⟩ := resp_answers hs hhist
  exact ⟨a, c, hbefore, answerWord_variant c, answerWord_count c⟩

/-- Settles O48: the COUNT of the Resp is a POPCOUNT, and only 0 and 0xFFFFFFFF have the two extreme counts. -/
theorem countsAreInRange : Obligations.CountsAreInRange := by
  intro s before after r hs hhist
  obtain ⟨a, c, hbefore, rfl⟩ := resp_answers hs hhist
  refine ⟨a, c, hbefore, ?_⟩
  rw [answerWord_count]
  exact ⟨popcount_le _, popcount_eq_zero _, popcount_eq_32 _⟩

end Sys2Proof.Machine
end

section
/-! PROOFS of the family `40_command_interface.md`: what one step of the machine can do, and so what ISSUE and TAKE
do and leave undone (R101, R103, R105). -/

namespace Sys2Proof.Machine

/-! ### Engine steps -/

/-- An engine iteration or a completion is all that any variant's step can do (R104). -/
theorem variantStep_cases {v : Variant} {s t : State} (h : variantStep v s = .next t) :
    KeepsPorts s t ∨ ∃ k, t = complete k s := by
  cases v with
  | scan =>
    obtain ⟨_, a, -, -, ⟨-, rfl⟩ | ⟨-, _, -, rfl⟩⟩ := scanStep_cases h
    · exact .inr ⟨a, rfl⟩
    · exact .inl ⟨rfl, rfl, rfl, rfl, rfl⟩
  | kern =>
    obtain ⟨_, a, -, -, ⟨-, rfl⟩ | ⟨-, rfl⟩⟩ := kernStep_cases h
    · exact .inr ⟨a, rfl⟩
    · exact .inl ⟨rfl, rfl, rfl, rfl, rfl⟩
  | lut =>
    obtain ⟨_, a, -, -, ⟨-, rfl⟩ | ⟨-, _, -, rfl⟩⟩ := lutStep_cases h
    · exact .inr ⟨a, rfl⟩
    · exact .inl ⟨rfl, rfl, rfl, rfl, rfl⟩
  | par =>
    obtain ⟨_, w, -, -, ⟨-, rfl⟩ | ⟨-, _, _, -, rfl⟩⟩ := parStep_cases h
    · exact .inr ⟨lowCount w, rfl⟩
    · exact .inl ⟨rfl, rfl, rfl, rfl, rfl⟩

theorem engineStep_keeps {s t : State} (hbusy : s.phase = .busy) (h : engineStep s = .next t) :
    KeepsPorts s t ∨ ∃ k, t = complete k s := by
  obtain ⟨_, -, hstep⟩ := engineStep_cases hbusy h
  exact variantStep_cases hstep

theorem engineStep_var {s t : State} (hbusy : s.phase = .busy) (h : engineStep s = .next t) : t.var = s.var := by
  rcases engineStep_keeps hbusy h with hkeep | ⟨k, rfl⟩
  · exact hkeep.var
  · rfl

theorem engineStep_history {s t : State} (hbusy : s.phase = .busy) (h : engineStep s = .next t) :
    t.history = s.history := by
  rcases engineStep_keeps hbusy h with hkeep | ⟨k, rfl⟩
  · exact hkeep.history
  · rfl

theorem engineStep_phase_ne_idle {s t : State} (hbusy : s.phase = .busy) (h : engineStep s = .next t) :
    t.phase ≠ .idle := by
  rcases engineStep_keeps hbusy h with hkeep | ⟨k, rfl⟩
  · simp [hkeep.phase, hbusy]
  · simp

/-! ### The coming edge -/

/-- An edge that accepts an offer is the ISSUE of the word on `cmd_data` (R35 case 2). -/
theorem step_offer {s : State} (hidle : s.phase = .idle) (hrst : (edgeNow s).rst = false)
    (hvalid : (edgeNow s).cmdValid = true) : step s = .next (issued (edgeNow s).cmdData (dropEdge s)) := by
  have haction : actionAt (edgeNow s) (dropEdge s) = some (.issue (edgeNow s).cmdData) := by
    simp [actionAt, cmdReady, hidle, hrst, hvalid]
  rw [step_eq, atEdge, haction]
  exact (perform_issue _ _).trans (issue_idle hidle)

/-- An edge at which a response is wanted is its TAKE (R35 case 3). -/
theorem step_take {s : State} (hdone : s.phase = .done) (hrst : (edgeNow s).rst = false)
    (hready : (edgeNow s).respReady = true) : step s = take (dropEdge s) := by
  have haction : actionAt (edgeNow s) (dropEdge s) = some .take := by
    simp [actionAt, cmdReady, respValid, hdone, hrst, hready]
  rw [step_eq, atEdge, haction]
  rfl

/-- R221: an edge's signals count only as far as the ports are ready or valid. -/
theorem atEdge_congr {e e' : Edge} {s : State} (hrst : e.rst = e'.rst) (hturn : e.engineTurn = e'.engineTurn)
    (hoffer : cmdReady e.rst s = true → e.cmdValid = e'.cmdValid ∧ (e.cmdValid = true → e.cmdData = e'.cmdData))
    (hresp : respValid e.rst s = true → e.respReady = e'.respReady) : atEdge e s = atEdge e' s := by
  have htake : (respValid e.rst s && e.respReady) = (respValid e.rst s && e'.respReady) := by
    cases hvalid : respValid e.rst s with
    | false => rfl
    | true => rw [hresp hvalid]
  have haction : actionAt e s = actionAt e' s := by
    rw [actionAt, actionAt, ← hrst, ← hturn, htake]
    cases hready : cmdReady e.rst s with
    | false => simp
    | true =>
      obtain ⟨hvalid, hdata⟩ := hoffer hready
      rw [← hvalid]
      cases hv : e.cmdValid with
      | false => rfl
      | true => rw [hdata hv]
  rw [atEdge, atEdge, haction]

theorem cmdReady_eq_false {rst : Bool} {s : State} (h : s.phase ≠ .idle) : cmdReady rst s = false := by
  simp [cmdReady, h]

theorem respValid_eq_false {rst : Bool} {s : State} (h : s.phase ≠ .done) : respValid rst s = false := by
  simp [respValid, h]

/-- Everything a step that goes on can do (R35), with the state it leaves. -/
inductive StepTo (s : State) : State → Prop where
  | reset (hrst : (edgeNow s).rst = true) : StepTo s (resetNow (dropEdge s))
  | issue (hrst : (edgeNow s).rst = false) (hidle : s.phase = .idle) (hvalid : (edgeNow s).cmdValid = true) :
      StepTo s (issued (edgeNow s).cmdData (dropEdge s))
  | take (v : VarCode) (k : Count) (hrst : (edgeNow s).rst = false) (hdone : s.phase = .done)
      (hready : (edgeNow s).respReady = true) (hvar : s.var = some v) (hresult : s.result = some k) :
      StepTo s (taken (respWord v k) (dropEdge s))
  | engine (t : State) (hrst : (edgeNow s).rst = false) (hbusy : s.phase = .busy)
      (hturn : (edgeNow s).engineTurn = true) (hstep : engineStep (dropEdge s) = .next t) : StepTo s t
  | wait (hrst : (edgeNow s).rst = false) (hoffer : (edgeNow s).cmdValid = true → s.phase ≠ .idle)
      (hready : (edgeNow s).respReady = true → s.phase ≠ .done)
      (hturn : (edgeNow s).engineTurn = true → s.phase ≠ .busy) : StepTo s (dropEdge s)

theorem step_cases {s t : State} (h : step s = .next t) : StepTo s t := by
  rcases atEdge_cases (edgeNow s) (dropEdge s) with ⟨hrst, heq⟩ | ⟨hrst, hvalid, hidle, heq⟩ |
    ⟨hrst, hready, hdone, heq⟩ | ⟨hrst, hturn, hbusy, heq⟩ | ⟨hrst, hoffer, hready, hturn, heq⟩ <;> rw [step_eq, heq] at h
  · obtain rfl : resetNow (dropEdge s) = t := by simpa using h
    exact .reset hrst
  · obtain rfl : issued (edgeNow s).cmdData (dropEdge s) = t := by
      simpa [exec_eq_issue, issue_idle hidle] using h
    exact .issue hrst hidle hvalid
  · rcases take_cases h with ⟨-, v, k, hvar, hresult, rfl⟩ | ⟨hne, -⟩
    · exact .take v k hrst hdone hready hvar hresult
    · exact absurd hdone hne
  · exact .engine t hrst hbusy hturn h
  · obtain rfl : dropEdge s = t := by simpa using h
    exact .wait hrst hoffer hready hturn

/-! ### ISSUE and TAKE -/

/-- Settles O14: a step that enters BUSY from outside is an ISSUE, which writes `acc`. -/
theorem accumulatorStartsAtZero : Obligations.AccumulatorStartsAtZero := by
  intro s t hs hstep ht
  cases step_cases hstep with
  | reset => simp at ht
  | issue => rfl
  | take => simp at ht
  | engine _ _ hbusy => exact absurd hbusy hs
  | wait => exact absurd ht hs

/-- R101: outside IDLE and without a reset, no step records an Issue or writes `var`, and one that reaches IDLE has
delivered a response. -/
theorem step_outside_idle {s t : State} (hs : s.phase ≠ .idle) (hrst : (edgeNow s).rst = false)
    (hstep : step s = .next t) :
    t.var = s.var ∧ (∀ c, t.history ≠ s.history ++ [.issue c]) ∧
      (t.phase = .idle → s.phase = .done ∧ ∃ r, t.history = s.history ++ [.resp r]) := by
  cases step_cases hstep with
  | reset hrst' => simp [hrst'] at hrst
  | issue _ hidle => exact absurd hidle hs
  | take v k _ hdone => exact ⟨rfl, by simp, fun _ => ⟨hdone, _, rfl⟩⟩
  | engine _ _ hbusy _ hengine =>
    have hhistory := engineStep_history (s := dropEdge s) hbusy hengine
    exact ⟨engineStep_var (s := dropEdge s) hbusy hengine, by simp [hhistory],
      fun hidle => absurd hidle (engineStep_phase_ne_idle (s := dropEdge s) hbusy hengine)⟩
  | wait => exact ⟨rfl, by simp, fun hidle => absurd hidle hs⟩

/-- R103: outside DONE no step records a Resp. -/
theorem step_outside_done_history {s t : State} (hs : s.phase ≠ .done) (hstep : step s = .next t) (r : RespWord) :
    t.history ≠ s.history ++ [.resp r] := by
  cases step_cases hstep with
  | reset => simp
  | issue => simp
  | take _ _ _ hdone => exact absurd hdone hs
  | engine _ _ hbusy _ hengine => simp [engineStep_history (s := dropEdge s) hbusy hengine]
  | wait => simp

/-- Settles O13: ISSUE gives the whole next state in IDLE; outside IDLE `cmd_ready` is 0, so the signals of an offer do
not count. -/
theorem issueLatchesTheCommand : Obligations.IssueLatchesTheCommand := by
  refine ⟨fun i s hidle => ?_, fun s hidle hrst hvalid => step_offer hidle hrst hvalid,
    fun s t hs hrst hstep => ⟨cmdReady_eq_false hs, step_outside_idle hs hrst hstep⟩, fun s e es c hs _ => ?_⟩
  · rw [exec_idle i hidle, issued, cmdVariant_encode, cmdOperand_encode]
  · have hready : ∀ rst, cmdReady rst { s with edges := es } = false := fun _ => cmdReady_eq_false hs
    rw [step_cons, step_cons]
    exact atEdge_congr rfl rfl (fun h => by simp [hready] at h) fun _ => rfl

/-- Settles O15: TAKE gives the whole next state in DONE; outside DONE `resp_valid` is 0, so `resp_ready` does not
count. -/
theorem takeDeliversTheResponse : Obligations.TakeDeliversTheResponse := by
  refine ⟨fun s v k hdone hvar hresult hrst hready => ?_, fun s t => step_outside_done_history,
    fun s hs rst => ⟨respValid_eq_false hs, respData_eq_none (respValid_eq_false hs)⟩, fun s e es hs _ => ?_⟩
  · exact (step_take hdone hrst hready).trans (take_done hdone hvar hresult)
  · have hvalid : ∀ rst, respValid rst { s with edges := es } = false := fun _ => respValid_eq_false hs
    rw [step_cons, step_cons]
    exact atEdge_congr rfl rfl (fun _ => ⟨rfl, fun _ => rfl⟩) fun h => by simp [hvalid] at h

end Sys2Proof.Machine
end

section
/-! PROOFS of the family `41_bitwise_scan.md`: where a SCAN command stands after `j` iterations (R132), and the SCAN
step (R131). -/

namespace Sys2Proof.Machine

/-- The count of at most 32 bits is not cut off at 6 bits. -/
theorem toNat_ofNat_bitCount {w : Nat} (n : BitVec w) (lo : Nat) {len : Nat} (h : len ≤ 32) :
    (BitVec.ofNat 6 (bitCount n lo len)).toNat = bitCount n lo len := by
  have hcount := bitCount_le n lo len
  rw [BitVec.toNat_ofNat]
  exact Nat.mod_eq_of_lt (by omega)

/-- Every command, in flight for `j` engine steps after the ISSUE that `exec` is. -/
theorem exec_running (i : Instr) {s : State} {j : Nat} (hidle : s.phase = .idle)
    (hj : j < stepsNeeded i.variant i.operand) :
    ∃ t u, exec i s = .next t ∧ engineSteps j t = .next u ∧ Running i.variant i.operand j u := by
  have hstart := running_issued_encode i s
  obtain ⟨u, hsteps, -, hrun⟩ := engineSteps_running hstart j (by omega)
  rw [Nat.zero_add] at hrun
  exact ⟨_, u, exec_idle i hidle, hsteps, hrun⟩

/-- Settles O35: the iterations keep `scanAt`, whose `acc` counts the bits that have left `work`. -/
theorem scanProgress : Obligations.ScanProgress := by
  intro n s j hidle hj
  obtain ⟨t, u, hexec, hsteps, hrun⟩ := exec_running (.popcScan n) hidle (Nat.lt_succ_of_le hj)
  obtain ⟨hidx, hwork, hacc⟩ : scanAt n j u := hrun.progress
  refine ⟨t, u, _, hexec, hsteps, hrun.busy, hidx, hwork, hacc, ?_⟩
  rw [toNat_ofNat_bitCount n 0 hj]
  refine ⟨rfl, bitCount_le n 0 j, bitCount_add_popcount_shift n j, ?_⟩
  rintro rfl
  exact ⟨BitVec.ushiftRight_eq_zero (Nat.le_refl 32), rfl⟩

/-- The bit that SCAN adds, as the spec writes it: `work` masked with 1. -/
theorem lowBit_eq_setWidth_and_one (w : Word) : lowBit w = BitVec.setWidth 6 (w &&& 1#32) := by
  have hbit : w.toNat % 2 < 64 := by omega
  apply BitVec.eq_of_toNat_eq
  simp [lowBit, BitVec.extractLsb'_toNat, hbit]

/-- Settles O16: in BUSY with `var` 00 the engine's step is the SCAN step, in its two branches. -/
theorem scanStepRule : Obligations.ScanStepRule := by
  intro s a hbusy hvar hacc
  have hscan : engineStep s = scanStep s := engineStep_busy hbusy hvar
  rw [hscan]
  constructor
  · exact fun hidx => scanStep_complete hidx hacc
  · intro i w hne hidx hwork
    rw [← lowBit_eq_setWidth_and_one]
    exact scanStep_iterate hidx hne hacc hwork

end Sys2Proof.Machine
end

section
/-! PROOFS of the family `42_kernighan.md`: what one KERN iteration does to `work`, where a KERN command stands after
`j` iterations (R152), and the KERN step (R151). -/

namespace Sys2Proof.Machine

/-- R152, on the bits of a word: `clearLowest` takes the lowest set bit away and leaves every other bit. -/
theorem getLsbD_clearLowest {w : Word} (h : w ≠ 0#32) : ∃ k, k < 32 ∧ w.getLsbD k = true ∧
    (∀ i, i < k → w.getLsbD i = false) ∧ ∀ i, (clearLowest w).getLsbD i = (w.getLsbD i && decide (i ≠ k)) := by
  have hpos : w.toNat ≠ 0 := by simpa [← BitVec.toNat_inj] using h
  have hle : 1#32 ≤ w := Nat.one_le_iff_ne_zero.2 hpos
  have hbits : (clearLowest w).toNat = w.toNat &&& (w.toNat - 1) := by
    rw [clearLowest, BitVec.toNat_and, BitVec.toNat_sub_of_le hle, BitVec.toNat_one (by decide)]
  obtain ⟨k, hset, hlow, hrest⟩ := and_pred_bits w.toNat hpos
  refine ⟨k, BitVec.lt_of_getLsbD hset, hset, hlow, fun i => ?_⟩
  rw [BitVec.getLsbD, hbits]
  exact hrest i

/-- Settles O36: the iterations keep `kernAt`, by which `acc` and the count of `work` always sum to the count of the
operand. -/
theorem kernProgress : Obligations.KernProgress := by
  refine ⟨fun _ hne => getLsbD_clearLowest hne, popcount_le, ?_⟩
  intro n s j hidle hj
  obtain ⟨t, u, hexec, hsteps, hrun⟩ := exec_running (.popcKern n) hidle (Nat.lt_succ_of_le hj)
  obtain ⟨hidx, hacc, w, hwork, hcount⟩ : kernAt n j u := hrun.progress
  have hmax := popcount_le n
  have hexact : (BitVec.ofNat 6 j).toNat = j := by
    rw [BitVec.toNat_ofNat]
    exact Nat.mod_eq_of_lt (by omega)
  refine ⟨t, u, _, w, hexec, hsteps, hrun.busy, hidx, hacc, hwork, hexact, by omega, by omega, ?_⟩
  rw [← popcount_eq_zero]
  omega

/-- Settles O17: in BUSY with `var` 01 the engine's step is the KERN step, in its two branches. -/
theorem kernStepRule : Obligations.KernStepRule := by
  intro s w a hbusy hvar hwork hacc
  have hkern : engineStep s = kernStep s := engineStep_busy hbusy hvar
  rw [hkern]
  constructor
  · rintro rfl
    exact kernStep_complete hwork hacc
  · exact fun hne => kernStep_iterate hwork hne hacc

end Sys2Proof.Machine
end

section
/-! PROOFS of the family `43_lut.md`: where a LUT command stands after `j` iterations (R172), and the LUT step
(R171). -/

namespace Sys2Proof.Machine

/-- Settles O37: the iterations keep `lutAt`, whose `acc` counts the bits of the bytes that have left `work`. -/
theorem lutProgress : Obligations.LutProgress := by
  intro n s j hidle hj
  obtain ⟨t, u, hexec, hsteps, hrun⟩ := exec_running (.popcLut n) hidle (Nat.lt_succ_of_le hj)
  obtain ⟨hidx, hwork, hacc⟩ : lutAt n j u := hrun.progress
  have hbits : 8 * j ≤ 32 := Nat.mul_le_mul_left 8 hj
  refine ⟨t, u, _, hexec, hsteps, hrun.busy, hidx, hwork, hacc, ?_⟩
  rw [lutSum_eq_bitCount, toNat_ofNat_bitCount n 0 hbits]
  refine ⟨rfl, bitCount_le n 0 (8 * j), bitCount_add_popcount_shift n (8 * j), ?_⟩
  rintro rfl
  exact ⟨BitVec.ushiftRight_eq_zero (Nat.le_refl 32), rfl⟩

/-- Settles O18: in BUSY with `var` 10 the engine's step is the LUT step, in its two branches. -/
theorem lutStepRule : Obligations.LutStepRule := by
  intro s a hbusy hvar hacc
  have hlut : engineStep s = lutStep s := engineStep_busy hbusy hvar
  rw [hlut]
  constructor
  · exact fun hidx => lutStep_complete hidx hacc
  · exact fun i w hne hidx hwork => lutStep_iterate hidx hne hacc hwork

end Sys2Proof.Machine
end


section
/-! PROOFS of the family `44_parallel_reduction.md`: the PAR step (R191) on the five rows of the stage table (R190). -/

namespace Sys2Proof.Machine

/-- The five rows of R190, as the spec writes them: the index, then its shift and its mask. -/
def parRows : List (Count × Nat × Word) :=
  [(0#6, 1, 0x55555555#32), (1#6, 2, 0x33333333#32), (2#6, 4, 0x0F0F0F0F#32), (3#6, 8, 0x00FF00FF#32),
    (4#6, 16, 0x0000FFFF#32)]

/-- R190: the model's stage table answers each row of the spec's. -/
theorem parStage_of_mem_parRows : ∀ row ∈ parRows, parStage row.1 = some row.2 := by decide

/-- The index at which PAR completes names no row of the stage table. -/
theorem ne_parStages_of_parStage {i : Count} {row : Nat × Word} (h : parStage i = some row) :
    i ≠ Config.parStages := by
  have hnone : parStage Config.parStages = none := rfl
  rintro rfl
  simp [hnone] at h

/-- Settles O19: in BUSY with `var` 11 the engine's step is the PAR step, which completes at index 5 and takes the row
of the table otherwise. -/
theorem parStepRule : Obligations.ParStepRule := by
  intro s w hbusy hvar hwork
  have hpar : engineStep s = parStep s := engineStep_busy hbusy hvar
  rw [hpar]
  constructor
  · exact fun hidx => parStep_complete hidx hwork
  · intro row hmem hidx
    have hrow : parStage row.1 = some row.2 := parStage_of_mem_parRows row hmem
    exact parStep_iterate hidx (ne_parStages_of_parStage hrow) hwork hrow

end Sys2Proof.Machine
end


section
/-! PROOFS of the family `60_exceptions.md`: the signals that the engine does not sample have no effect (R221). -/

namespace Sys2Proof.Machine

/-- Settles O9: one step is what the coming edge's signals do to the state with that edge used up, where the ports
read the same as before, so the edges are interchangeable by `atEdge_congr`. -/
theorem unacceptedOffersHaveNoEffect : Obligations.UnacceptedOffersHaveNoEffect := by
  intro s e e' hrst hturn hoffer hresp es
  rw [step_cons, step_cons]
  exact atEdge_congr hrst hturn hoffer hresp

end Sys2Proof.Machine
end


section
/-! PROOFS of the family `70_reset_and_hazards.md`: an edge at which the host asserts `rst` (R230). -/

namespace Sys2Proof.Machine

/-- R35: RESET comes first, so with `rst` = 1 neither the phase nor any other signal counts. -/
theorem actionAt_reset {e : Edge} (s : State) (hrst : e.rst = true) : actionAt e s = some .reset := by
  rw [actionAt, if_pos hrst]

/-- R230: an edge with `rst` = 1 performs RESET, whatever the phase. -/
theorem step_reset {s : State} (hrst : (edgeNow s).rst = true) : step s = .next (resetNow (dropEdge s)) := by
  rw [step_eq, atEdge, actionAt_reset (dropEdge s) hrst]
  rfl

/-- Settles O2: the step is RESET on the state with its edge used up, and RESET writes every element. -/
theorem resetAtAnyEdgeInAnyPhase : Obligations.ResetAtAnyEdgeInAnyPhase := fun _ => step_reset

end Sys2Proof.Machine
end


section
/-! PROOFS of the family `other`: the coming edge (R33 to R36, R100, R221), and edges in a row on which the host holds
reset (R232) or leaves the engine waiting (R233, R238). -/

namespace Sys2Proof.Machine

/-! ### The action an edge performs -/

/-- A step performs the action its edge asks for, if any. -/
theorem step_of_actionAt_some {s : State} {a : Action} (h : actionAt (edgeNow s) s = some a) :
    step s = perform a (dropEdge s) := by
  have hdrop : actionAt (edgeNow s) (dropEdge s) = some a := h
  rw [step_eq, atEdge, hdrop]

/-- An edge that asks for no action is only used up. -/
theorem step_of_actionAt_none {s : State} (h : actionAt (edgeNow s) s = none) : step s = .next (dropEdge s) := by
  have hdrop : actionAt (edgeNow s) (dropEdge s) = none := h
  rw [step_eq, atEdge, hdrop]

theorem actionAt_issue {e : Edge} {s : State} (hrst : e.rst = false) (hvalid : e.cmdValid = true)
    (hidle : s.phase = .idle) : actionAt e s = some (.issue e.cmdData) := by
  simp [actionAt, cmdReady, hrst, hvalid, hidle]

theorem actionAt_take {e : Edge} {s : State} (hrst : e.rst = false) (hready : e.respReady = true)
    (hdone : s.phase = .done) : actionAt e s = some .take := by
  simp [actionAt, cmdReady, respValid, hrst, hready, hdone]

theorem actionAt_step {e : Edge} {s : State} (hrst : e.rst = false) (hturn : e.engineTurn = true)
    (hbusy : s.phase = .busy) : actionAt e s = some .step := by
  simp [actionAt, cmdReady, respValid, hrst, hturn, hbusy]

/-- R35: an edge asks for nothing where each of its signals meets a phase that does not look at it. -/
theorem actionAt_eq_none {e : Edge} {s : State} (hrst : e.rst = false) (hoffer : e.cmdValid = true → s.phase ≠ .idle)
    (hready : e.respReady = true → s.phase ≠ .done) (hturn : e.engineTurn = true → s.phase ≠ .busy) :
    actionAt e s = none := by
  cases hphase : s.phase with
  | idle =>
    have hvalid : e.cmdValid = false := by simpa [hphase] using hoffer
    simp [actionAt, cmdReady, respValid, hrst, hvalid, hphase]
  | busy =>
    have hwait : e.engineTurn = false := by simpa [hphase] using hturn
    simp [actionAt, cmdReady, respValid, hrst, hwait, hphase]
  | done =>
    have hkept : e.respReady = false := by simpa [hphase] using hready
    simp [actionAt, cmdReady, respValid, hrst, hkept, hphase]

/-- An edge asks for enabled actions only. -/
theorem enabled_of_actionAt {e : Edge} {s : State} {a : Action} (h : actionAt e s = some a) : enabled a s = true := by
  simp only [actionAt, Bool.and_eq_true, cmdReady_eq_true, respValid_eq_true, beq_iff_eq] at h
  split_ifs at h with _ hissue htake hstep <;> obtain rfl := Option.some.inj h
  · rfl
  · obtain ⟨-, hidle, -⟩ := hissue
    simp [enabled, hidle]
  · obtain ⟨⟨hdone, -⟩, -⟩ := htake
    simp [enabled, hdone]
  · simp [enabled, hstep]

/-- The port signals that ask for an action. -/
def edgeFor : Action → Edge
  | .issue c => offerEdge c
  | .take => takeEdge
  | .reset => resetEdge
  | .step => quietEdge

theorem actionAt_edgeFor {a : Action} {s : State} (h : enabled a s = true) : actionAt (edgeFor a) s = some a := by
  cases a with
  | issue c => exact actionAt_issue rfl rfl (by simpa [enabled] using h)
  | take => exact actionAt_take rfl rfl (by simpa [enabled] using h)
  | reset => exact actionAt_reset s rfl
  | step => exact actionAt_step rfl rfl (by simpa [enabled] using h)

/-- Settles O7: each clause names the one action its edge asks for. -/
theorem edgePriority : Obligations.EdgePriority := fun _ =>
  ⟨step_reset,
    fun hrst hvalid hidle => step_of_actionAt_some (actionAt_issue hrst hvalid hidle),
    fun hrst hready hdone => step_of_actionAt_some (actionAt_take hrst hready hdone),
    fun hrst hturn hbusy => step_of_actionAt_some (actionAt_step hrst hturn hbusy),
    fun hrst hoffer hready hturn => step_of_actionAt_none (actionAt_eq_none hrst hoffer hready hturn)⟩

/-- Settles O8: the second clause of R35, on an edge at the head of the list. -/
theorem stepRunsTheDecodedCommand : Obligations.StepRunsTheDecodedCommand := by
  rintro s i e es hedges hidle hrst hvalid rfl
  have hnow : edgeNow s = e := edgeNow_cons s e es hedges
  have haction : actionAt (edgeNow s) s = some (.issue e.cmdData) := by
    rw [hnow]
    exact actionAt_issue hrst hvalid hidle
  rw [step_of_actionAt_some haction, perform, dropEdge, hedges, List.tail_cons]

/-- Settles O10: an edge asks for at most one action, an enabled one, and each action has signals that ask for it. -/
theorem anyEnabledActionMayComeNext : Obligations.AnyEnabledActionMayComeNext := by
  constructor
  · intro s
    cases haction : actionAt (edgeNow s) s with
    | none => exact .inl (step_of_actionAt_none haction)
    | some a => exact .inr ⟨a, enabled_of_actionAt haction, step_of_actionAt_some haction⟩
  · intro s a henabled
    exact ⟨edgeFor a, fun es => step_of_actionAt_some (s := { s with edges := edgeFor a :: es })
      (actionAt_edgeFor henabled)⟩

/-- Settles O11: ISSUE, TAKE and STEP each wait outside their phase, and RESET is never disabled. -/
theorem disabledActionsWait : Obligations.DisabledActionsWait := by
  refine ⟨fun s a hdisabled => ?_, fun i s hs => (exec_eq_issue i s).trans (issue_waits hs)⟩
  cases a with
  | issue c => exact (perform_issue c s).trans (issue_waits (by simpa [enabled] using hdisabled))
  | take => exact take_waits (by simpa [enabled] using hdisabled)
  | reset => simp [enabled] at hdisabled
  | step => exact engineStep_waits (by simpa [enabled] using hdisabled)

/-! ### The ports -/

theorem cmdReady_congr {s s' : State} (hphase : s.phase = s'.phase) (rst : Bool) : cmdReady rst s = cmdReady rst s' := by
  rw [cmdReady, cmdReady, hphase]

theorem respValid_congr {s s' : State} (hphase : s.phase = s'.phase) (rst : Bool) :
    respValid rst s = respValid rst s' := by
  rw [respValid, respValid, hphase]

/-- R34: `resp_data` shows `var` and `result`, and these in DONE only. -/
theorem respData_congr {s s' : State} (hphase : s.phase = s'.phase)
    (hdone : s.phase = .done → s.var = s'.var ∧ s.result = s'.result) (rst : Bool) :
    respData rst s = respData rst s' := by
  have hports := respValid_congr hphase rst
  cases hvalid : respValid rst s with
  | false => rw [respData_eq_none hvalid, respData_eq_none (hports.symm.trans hvalid)]
  | true =>
    obtain ⟨hvar, hresult⟩ := hdone (respValid_eq_true.1 hvalid).1
    rw [respData, respData, ← hports, hvar, hresult]

/-- Settles O6: port by port. -/
theorem portsHideTheDatapath : Obligations.PortsHideTheDatapath := fun rst _ _ hphase hdone =>
  ⟨cmdReady_congr hphase rst, respValid_congr hphase rst, respData_congr hphase hdone rst⟩

/-! ### RESET -/

/-- Settles O1: `resetNow` writes the values of `State.reset`, element by element. -/
theorem resetLeavesOnlyIdle : Obligations.ResetLeavesOnlyIdle :=
  ⟨fun _ => rfl, rfl, rfl, rfl, rfl, rfl, rfl, rfl, fun _ => rfl⟩

/-! ### Edges in a row -/

/-- A run goes on from where its first step leads. -/
theorem runSteps_of_step {s t : State} (h : step s = .next t) (k : Nat) : runSteps (k + 1) s = runSteps k t := by
  rw [runSteps, h, andThen_next]

/-- The coming edge is a listed one, or the quiet host's. -/
theorem edgeNow_mem_or_quiet (s : State) : edgeNow s ∈ s.edges ∨ s.edges = [] ∧ edgeNow s = quietEdge := by
  cases hedges : s.edges with
  | nil => exact .inr ⟨rfl, edgeNow_nil s hedges⟩
  | cons e es => exact .inl (by simp [edgeNow_cons s e es hedges])

theorem edgeNow_eq_getD (s : State) : edgeNow s = s.edges.getD 0 quietEdge := by
  cases hedges : s.edges <;> simp [edgeNow, hedges]

/-- R232: edges of reset in a row leave what one leaves, with an event for each of them. -/
theorem runSteps_reset {s : State} (k : Nat) (hrst : ∀ j, j ≤ k → (s.edges.getD j quietEdge).rst = true) :
    runSteps (k + 1) s = .next
      { State.reset with history := s.history ++ List.replicate (k + 1) .reset, edges := s.edges.drop (k + 1) } := by
  induction k generalizing s with
  | zero =>
    have hfirst := step_reset (s := s) (edgeNow_eq_getD s ▸ hrst 0 (Nat.le_refl 0))
    rw [runSteps_of_step hfirst]
    simp [runSteps, resetNow, dropEdge, State.reset]
  | succ k ih =>
    have hfirst := step_reset (s := s) (edgeNow_eq_getD s ▸ hrst 0 (Nat.zero_le _))
    have hlater : ∀ j, j ≤ k → (s.edges.tail.getD j quietEdge).rst = true := fun j hj => by
      simpa [List.getD_eq_getElem?_getD] using hrst (j + 1) (by omega)
    rw [runSteps_of_step hfirst, ih (s := resetNow (dropEdge s)) hlater]
    simp [List.replicate_succ]

/-- Settles O3: the ports read `rst` directly, and the run is `runSteps_reset`. -/
theorem holdingResetChangesNothingMore : Obligations.HoldingResetChangesNothingMore := by
  refine ⟨fun s => ?_, fun _ => runSteps_reset⟩
  have hvalid : respValid true s = false := by simp [respValid]
  exact ⟨by simp [cmdReady], hvalid, respData_eq_none hvalid⟩

/-- Where neither a listed edge nor the quiet host after the list asks for an action, a run only uses up edges. -/
theorem runSteps_of_no_action {s : State} (hlisted : ∀ e ∈ s.edges, actionAt e s = none)
    (hquiet : actionAt quietEdge s = none) (k : Nat) :
    runSteps k s = .next { s with edges := s.edges.drop k } := by
  induction k generalizing s with
  | zero => rfl
  | succ k ih =>
    have hnow : actionAt (edgeNow s) s = none := by
      rcases edgeNow_mem_or_quiet s with hmem | ⟨-, hnow⟩
      · exact hlisted _ hmem
      · rwa [hnow]
    have hrest : ∀ e ∈ s.edges.tail, actionAt e (dropEdge s) = none := fun e he =>
      hlisted e (List.mem_of_mem_tail he)
    rw [runSteps_of_step (step_of_actionAt_none hnow), ih (s := dropEdge s) hrest hquiet]
    simp [dropEdge]

/-- Settles O50: in DONE only `rst` and `resp_ready`, and in IDLE only `rst` and `cmd_valid`, ask for an action. -/
theorem theEngineWaitsForTheHost : Obligations.TheEngineWaitsForTheHost := by
  refine fun s k => ⟨fun hdone hhost => ?_, fun hidle hhost => ?_⟩
  · have hnone : ∀ e : Edge, e.rst = false ∧ e.respReady = false → actionAt e s = none := fun e ⟨hrst, hready⟩ =>
      actionAt_eq_none hrst (by simp [hdone]) (by simp [hready]) (by simp [hdone])
    exact runSteps_of_no_action (fun e he => hnone e (hhost e he)) (hnone quietEdge ⟨rfl, rfl⟩) k
  · have hnone : ∀ e : Edge, e.rst = false ∧ e.cmdValid = false → actionAt e s = none := fun e ⟨hrst, hvalid⟩ =>
      actionAt_eq_none hrst (by simp [hvalid]) (by simp [hidle]) (by simp [hidle])
    exact runSteps_of_no_action (fun e he => hnone e (hhost e he)) (hnone quietEdge ⟨rfl, rfl⟩) k

/-- Settles O12: the first edge finds the engine in DONE and takes; the second finds it IDLE and issues. -/
theorem offerInDoneWaitsForTheTake : Obligations.OfferInDoneWaitsForTheTake := by
  intro s c c' v k es hdone hvar hresult hedges
  have hfirst : edgeNow s = { offerEdge c with respReady := true } := edgeNow_cons s _ _ hedges
  have htake : step s = .next (taken (respWord v k) (dropEdge s)) :=
    (step_take hdone (by rw [hfirst]; rfl) (by rw [hfirst])).trans (take_done hdone hvar hresult)
  have hsecond : edgeNow (taken (respWord v k) (dropEdge s)) = offerEdge c' :=
    edgeNow_cons _ _ es (by simp [hedges])
  have hissue := step_offer (s := taken (respWord v k) (dropEdge s)) rfl (by rw [hsecond]; rfl) (by rw [hsecond]; rfl)
  rw [runSteps_of_step htake, runSteps_of_step hissue, hsecond]
  simp [runSteps, issued, taken, dropEdge, hedges, offerEdge, cmdVariant, cmdOperand, respWord]

end Sys2Proof.Machine
end


section
/-! PROOFS of the family `other`: what an engine step leaves alone (R104), who writes each element (R21), and the
reads that find no value (R29, R223). -/

namespace Sys2Proof.Machine

/-! ### Frames and writers -/

/-- R150: a KERN iteration leaves `idx`. -/
theorem engineStep_kern_idx {s t : State} (hbusy : s.phase = .busy) (hvar : s.var = some 0b01#2)
    (h : engineStep s = .next t) : t.idx = s.idx := by
  have hkern : kernStep s = .next t := (engineStep_busy hbusy hvar).symm.trans h
  obtain ⟨_, _, -, -, ⟨-, rfl⟩ | ⟨-, rfl⟩⟩ := kernStep_cases hkern <;> rfl

/-- R191: a PAR stage leaves `acc`. -/
theorem engineStep_par_acc {s t : State} (hbusy : s.phase = .busy) (hvar : s.var = some 0b11#2)
    (h : engineStep s = .next t) : t.acc = s.acc := by
  have hpar : parStep s = .next t := (engineStep_busy hbusy hvar).symm.trans h
  obtain ⟨_, _, -, -, ⟨-, rfl⟩ | ⟨-, _, _, -, rfl⟩⟩ := parStep_cases hpar <;> rfl

/-- Settles O20: an iteration keeps all but `work`, `acc` and `idx`, and a completion writes `phase` and `result`
alone. -/
theorem engineStepFrame : Obligations.EngineStepFrame := by
  intro s t hbusy hstep
  have hkern : s.var = some 0b01#2 → t.idx = s.idx := fun hvar => engineStep_kern_idx hbusy hvar hstep
  have hpar : s.var = some 0b11#2 → t.acc = s.acc := fun hvar => engineStep_par_acc hbusy hvar hstep
  rcases engineStep_keeps hbusy hstep with hkeep | ⟨k, rfl⟩
  · exact ⟨hkeep.var, hkeep.history, hkeep.edges, .inl ⟨hkeep.phase.trans hbusy, hkeep.result⟩, hkern, hpar⟩
  · exact ⟨rfl, rfl, rfl, .inr ⟨rfl, rfl, rfl, rfl, rfl⟩, hkern, hpar⟩

/-- Settles O21: by what the step was; an engine step's writes are those of its frame. -/
theorem elementsHaveOnlyTheirWriters : Obligations.ElementsHaveOnlyTheirWriters := by
  intro s t hrst hstep
  cases step_cases hstep with
  | reset hrst' => simp [hrst'] at hrst
  | issue _ hidle => simp [hidle]
  | take v k _ hdone => simp [hdone]
  | wait => simp
  | engine _ _ hbusy _ hengine =>
    obtain ⟨hvar, -, -, hphase, hkern, hpar⟩ := engineStepFrame (dropEdge s) t hbusy hengine
    rcases hphase with ⟨hstay, hresult⟩ | ⟨hdone, -, hwork, hacc, hidx⟩
    · exact ⟨fun hne => absurd (hstay.trans hbusy.symm) hne, absurd hvar, fun _ => .inr ⟨hbusy, hstay⟩,
        fun hne => .inr ⟨hbusy, hstay, mt hpar hne⟩, fun hne => .inr ⟨hbusy, hstay, mt hkern hne⟩, absurd hresult⟩
    · exact ⟨fun _ => .inr (.inl ⟨hbusy, hdone⟩), absurd hvar, absurd hwork, absurd hacc, absurd hidx,
        fun _ => ⟨hbusy, hdone⟩⟩

/-! ### Reads that find no value -/

/-- A read faults where there is no value, and where whatever follows it faults. -/
theorem need_faults {α : Type} {x : Option α} {k : α → Host.Outcome State Fault Refusal}
    (h : ∀ v, x = some v → k v = .fault .readNoValue) : need x k = .fault .readNoValue := by
  cases x with
  | none => rfl
  | some v => exact h v rfl

theorem scanStep_faults {s : State} (h : s.idx = none ∨ s.acc = none) : scanStep s = .fault .readNoValue := by
  rcases h with hidx | hacc
  · simp [scanStep, hidx]
  · exact need_faults fun i _ => by split <;> simp [hacc]

theorem scanStep_faults_of_work {s : State} (hne : s.idx ≠ some Config.scanIters) (hwork : s.work = none) :
    scanStep s = .fault .readNoValue :=
  need_faults fun i hidx => by
    rw [if_neg (by rintro rfl; exact hne hidx), hwork]
    exact need_faults fun _ _ => rfl

theorem kernStep_faults {s : State} (h : s.work = none ∨ s.acc = none) : kernStep s = .fault .readNoValue := by
  rcases h with hwork | hacc
  · simp [kernStep, hwork]
  · exact need_faults fun w _ => by split <;> simp [hacc]

theorem lutStep_faults {s : State} (h : s.idx = none ∨ s.acc = none) : lutStep s = .fault .readNoValue := by
  rcases h with hidx | hacc
  · simp [lutStep, hidx]
  · exact need_faults fun i _ => by split <;> simp [hacc]

theorem lutStep_faults_of_work {s : State} (hne : s.idx ≠ some Config.lutLookups) (hwork : s.work = none) :
    lutStep s = .fault .readNoValue :=
  need_faults fun i hidx => by
    rw [if_neg (by rintro rfl; exact hne hidx), hwork]
    exact need_faults fun _ _ => rfl

theorem parStep_faults {s : State} (h : s.idx = none ∨ s.work = none) : parStep s = .fault .readNoValue := by
  rcases h with hidx | hwork
  · simp [parStep, hidx]
  · exact need_faults fun i _ => by split <;> simp [hwork]

theorem take_faults {s : State} (hdone : s.phase = .done) (h : s.var = none ∨ s.result = none) :
    take s = .fault .readNoValue := by
  simp only [take, hdone]
  rcases h with hvar | hresult
  · rw [hvar, need_none]
  · exact need_faults fun v _ => by rw [hresult, need_none]

/-- Settles O22: STEP runs the step of the variant that `var` names, which faults on its own reads. -/
theorem readingNoValueFaults : Obligations.ReadingNoValueFaults := fun s =>
  ⟨fun hbusy hvar => by simp [engineStep, hbusy, hvar],
    fun hbusy hvar h => (engineStep_busy hbusy hvar).trans (scanStep_faults h),
    fun hbusy hvar hne hwork => (engineStep_busy hbusy hvar).trans (scanStep_faults_of_work hne hwork),
    fun hbusy hvar h => (engineStep_busy hbusy hvar).trans (kernStep_faults h),
    fun hbusy hvar h => (engineStep_busy hbusy hvar).trans (lutStep_faults h),
    fun hbusy hvar hne hwork => (engineStep_busy hbusy hvar).trans (lutStep_faults_of_work hne hwork),
    fun hbusy hvar h => (engineStep_busy hbusy hvar).trans (parStep_faults h),
    fun hdone h => take_faults hdone h⟩

end Sys2Proof.Machine
end

section
/-! PROOFS of the family `other`: the constant tables (R51, R190) and the words of commands and responses (R70 to R77). -/

namespace Sys2Proof

open Machine

/-- Settles O23: the ROM's entries, checked for R54. -/
theorem lutRomHoldsBitCounts : Obligations.LutRomHoldsBitCounts := lutRead_toNat

/-- Settles O25: row `j` of the table shifts by the lane's width and masks the low halves. -/
theorem parStageAddsLaneByLane : Obligations.ParStageAddsLaneByLane := by
  intro w m j s p hj hrow hp
  obtain ⟨rfl, rfl⟩ : 2 ^ j = s ∧ rowMask j = m := by simpa [parStage_ofNat j hj] using hrow
  exact ⟨rfl, lane_laneSum_rowMask w hj hp⟩

/-- Settles O26: the fields of a command are its VARIANT and OPERAND, and no bit of a word is outside them. -/
theorem decodeAndEncodeAgree : Obligations.DecodeAndEncodeAgree := ⟨decode_encode, encode_decode⟩

/-- The number of a 34-bit word decodes as the word does (R76). -/
theorem decodeNumber_toNat (c : CmdWord) : decodeNumber c.toNat = .ok (decode c) := by
  simp [decodeNumber, cmdNumberOk, c.isLt]

/-- A width of at least 34 bits cuts nothing off a command word. -/
theorem tableNumber_toNat (c : CmdWord) {nbits : Nat} (h : 34 ≤ nbits) : tableNumber nbits c.toNat = c.toNat :=
  Nat.mod_eq_of_lt (Nat.lt_of_lt_of_le c.isLt (Nat.pow_le_pow_right (by decide) h))

/-- Settles O29: a word's number is read back whole, and a wider one fails the check of `decodeNumber`. -/
theorem wordNumbersDecodeOrAreTooWide : Obligations.WordNumbersDecodeOrAreTooWide := by
  refine ⟨fun i nbits hbits => ?_, fun w hw => ?_⟩
  · rw [decodeTableWord, tableNumber_toNat _ hbits, decodeNumber_toNat, decode_encode]
  · have hwide : cmdNumberOk w = false := decide_eq_false (Nat.not_lt.2 hw)
    rw [decodeNumber, hwide]
    rfl

theorem decodeResp_respWord (v : VarCode) (k : Count) :
    decodeResp (respWord v k) = if countOk k then .ok (variantOf v, k) else .error .countOutOfRange := by
  rw [decodeResp, respVariant_respWord, respCount_respWord]

/-- Settles O31: the fields read back, and the check on COUNT decides. -/
theorem responseFieldsReadBack : Obligations.ResponseFieldsReadBack := by
  intro v k
  rw [decodeResp_respWord, variantOf_variantCode]
  refine ⟨fun hcount => if_pos (decide_eq_true hcount), fun hcount => if_neg ?_⟩
  have hrefused : ¬ k.toNat ≤ Config.maxCount := Nat.not_le.2 hcount
  simpa [countOk] using hrefused

/-- A command word as a number: VARIANT above the 32 bits of OPERAND (R70). -/
theorem toNat_cmdWord (v : VarCode) (n : Word) : (cmdWord v n).toNat = v.toNat * 2 ^ 32 + n.toNat := by
  rw [cmdWord, BitVec.toNat_append, ← Nat.shiftLeft_add_eq_or_of_lt n.isLt, Nat.shiftLeft_eq]

/-- Settles O32: the check on the operand decides, and an operand that passes it is not cut off at 32 bits. -/
theorem assemblerChecksTheOperand : Obligations.AssemblerChecksTheOperand := by
  refine fun v n => ⟨fun hn => ?_, fun hn => ?_⟩
  · have hok : operandOk n = true := decide_eq_true hn
    refine ⟨commandOf v (BitVec.ofNat 32 n), by rw [assembleCommand, if_pos hok], ?_⟩
    rw [encode_commandOf, toNat_cmdWord, BitVec.toNat_ofNat, Nat.mod_eq_of_lt hn]
  · have hbad : operandOk n = false := decide_eq_false (Nat.not_lt.2 hn)
    rw [assembleCommand, hbad]
    rfl

end Sys2Proof
end


section
/-! PROOFS of the family `other`: where the host's history has brought the engine, and that every step leads from such
a point to the one the edge's signals select (R35, R37, R104). The invariant, liveness and what the host can see are
read off it. -/

namespace Sys2Proof.Machine

/-- A point in the life of the commands: none in flight, `c` in flight with `j` iterations done, or `c`'s response
waiting. -/
inductive Point where
  | idle
  | busy (c : CmdWord) (j : Nat)
  | done (c : CmdWord)

/-- The command accepted and not yet answered. -/
@[simp] def Point.command : Point → Option CmdWord
  | .idle => none
  | .busy c _ => some c
  | .done c => some c

/-- The phase at a point (R23). -/
@[simp] def Point.phase : Point → Phase
  | .idle => .idle
  | .busy _ _ => .busy
  | .done _ => .done

/-- The elements that are read at a point hold what its command makes of them (R37). -/
inductive StandsAt (s : State) : Point → Prop where
  | idle (hidle : s.phase = .idle) : StandsAt s .idle
  | busy {c : CmdWord} {j : Nat} (hrun : Running (variantOf (cmdVariant c)) (cmdOperand c) j s) :
      StandsAt s (.busy c j)
  | done {c : CmdWord} (hdone : s.phase = .done) (hvar : s.var = some (cmdVariant c))
      (hresult : s.result = some (BitVec.ofNat 6 (popcount (cmdOperand c)))) : StandsAt s (.done c)

/-- The point after an engine step on `c` (R106). -/
def Point.afterTurn (c : CmdWord) (j : Nat) : Point :=
  if j + 1 < stepsNeeded (variantOf (cmdVariant c)) (cmdOperand c) then .busy c (j + 1) else .done c

/-- The point after an edge (R35). -/
def Point.after (e : Edge) (p : Point) : Point :=
  if e.rst then .idle
  else
    match p with
    | .idle => if e.cmdValid then .busy e.cmdData 0 else .idle
    | .busy c j => if e.engineTurn then .afterTurn c j else .busy c j
    | .done c => if e.respReady then .idle else .done c

/-- The events an edge records (R102). -/
def Point.events (e : Edge) (p : Point) : List Event :=
  if e.rst then [.reset]
  else
    match p with
    | .idle => if e.cmdValid then [.issue e.cmdData] else []
    | .busy _ _ => []
    | .done c => if e.respReady then [.resp (answerWord c)] else []

/-! ### One step -/

theorem StandsAt.phase_eq {s : State} {p : Point} (h : StandsAt s p) : s.phase = p.phase := by
  cases h with
  | idle hidle => exact hidle
  | busy hrun => exact hrun.busy
  | done hdone => exact hdone

theorem progressAt_dropEdge {v : Variant} {n : Word} {j : Nat} {s : State} (h : progressAt v n j s) :
    progressAt v n j (dropEdge s) := by
  cases v <;> exact h

/-- Standing at a point is a matter of the elements, not of the coming edges. -/
theorem StandsAt.dropEdge {s : State} {p : Point} (h : StandsAt s p) : StandsAt (dropEdge s) p := by
  cases h with
  | idle hidle => exact .idle hidle
  | done hdone hvar hresult => exact .done hdone hvar hresult
  | busy hrun =>
    obtain ⟨hbusy, hvar, hprogress, hwithin⟩ := hrun
    exact .busy ⟨hbusy, hvar, progressAt_dropEdge hprogress, hwithin⟩

/-- An engine step on the command in flight leads to the next point, and changes nothing else the host can see. -/
theorem engineStep_standsAt {s : State} {c : CmdWord} {j : Nat}
    (h : Running (variantOf (cmdVariant c)) (cmdOperand c) j s) :
    ∃ t, engineStep s = .next t ∧ StandsAt t (.afterTurn c j) ∧ t.edges = s.edges ∧ t.history = s.history := by
  have hwithin := h.within
  rw [Point.afterTurn]
  split
  next hmore =>
    obtain ⟨t, hstep, hkeep, hrun⟩ := engineStep_iterates h hmore
    exact ⟨t, hstep, .busy hrun, hkeep.edges, hkeep.history⟩
  next hlast =>
    have hvar : s.var = some (cmdVariant c) := by rw [h.var, variantCode_variantOf]
    exact ⟨_, engineStep_completes h (by omega), .done rfl hvar rfl, rfl, rfl⟩

/-- A step from `s` goes on to the point `p`, records `events` and uses up one edge. -/
def StepsTo (s : State) (p : Point) (events : List Event) : Prop :=
  ∃ t, step s = .next t ∧ StandsAt t p ∧ t.edges = s.edges.tail ∧ t.history = s.history ++ events

theorem stepsTo_wait {s : State} {p : Point} (h : StandsAt s p) (hnone : actionAt (edgeNow s) s = none) :
    StepsTo s p [] :=
  ⟨_, step_of_actionAt_none hnone, h.dropEdge, rfl, by simp⟩

theorem stepsTo_reset {s : State} (hrst : (edgeNow s).rst = true) : StepsTo s .idle [.reset] :=
  ⟨_, step_reset hrst, .idle rfl, rfl, rfl⟩

theorem stepsTo_issue {s : State} (hidle : s.phase = .idle) (hrst : (edgeNow s).rst = false)
    (hvalid : (edgeNow s).cmdValid = true) :
    StepsTo s (.busy (edgeNow s).cmdData 0) [.issue (edgeNow s).cmdData] :=
  ⟨_, step_offer hidle hrst hvalid, .busy (running_issued _ _), rfl, rfl⟩

theorem stepsTo_take {s : State} {c : CmdWord} (h : StandsAt s (.done c)) (hrst : (edgeNow s).rst = false)
    (hready : (edgeNow s).respReady = true) : StepsTo s .idle [.resp (answerWord c)] := by
  cases h with
  | done hdone hvar hresult =>
    exact ⟨_, (step_take hdone hrst hready).trans (take_done hdone hvar hresult), .idle rfl, rfl, rfl⟩

theorem stepsTo_turn {s : State} {c : CmdWord} {j : Nat} (h : StandsAt s (.busy c j))
    (hrst : (edgeNow s).rst = false) (hturn : (edgeNow s).engineTurn = true) : StepsTo s (.afterTurn c j) [] := by
  have haction : actionAt (edgeNow s) s = some .step := actionAt_step hrst hturn h.phase_eq
  cases h.dropEdge with
  | busy hrun =>
    obtain ⟨t, hstep, ht, hedges, hhistory⟩ := engineStep_standsAt hrun
    exact ⟨t, (step_of_actionAt_some haction).trans hstep, ht, hedges, by simpa using hhistory⟩

/-- Every step from a point goes on, to the point and with the events that the edge's signals select. -/
theorem step_standsAt {s : State} {p : Point} (h : StandsAt s p) :
    StepsTo s (p.after (edgeNow s)) (p.events (edgeNow s)) := by
  have hphase := h.phase_eq
  unfold Point.after Point.events
  cases hrst : (edgeNow s).rst with
  | true => exact stepsTo_reset hrst
  | false =>
    cases p with
    | idle =>
      cases hvalid : (edgeNow s).cmdValid with
      | true => exact stepsTo_issue hphase hrst hvalid
      | false => exact stepsTo_wait h (actionAt_eq_none hrst (by simp [hvalid]) (by simp [hphase, Point.phase])
          (by simp [hphase, Point.phase]))
    | busy c j =>
      cases hturn : (edgeNow s).engineTurn with
      | true => exact stepsTo_turn h hrst hturn
      | false => exact stepsTo_wait h (actionAt_eq_none hrst (by simp [hphase, Point.phase])
          (by simp [hphase, Point.phase]) (by simp [hturn]))
    | done c =>
      cases hready : (edgeNow s).respReady with
      | true => exact stepsTo_take h hrst hready
      | false => exact stepsTo_wait h (actionAt_eq_none hrst (by simp [hphase, Point.phase]) (by simp [hready])
          (by simp [hphase, Point.phase]))

/-! ### Histories -/

/-- A history is right where its first part is, and the rest is right from the command then pending. -/
theorem historyOk_append (p : Option CmdWord) (h rest : List Event) :
    historyOk p (h ++ rest) = (historyOk p h && historyOk (h.foldl pendingAfter p) rest) := by
  induction h generalizing p with
  | nil => rfl
  | cons e h ih => cases e <;> cases p <;> simp [historyOk, pendingAfter, ih, Bool.and_assoc]

/-- The events of a step are right where they come. -/
theorem historyOk_events (e : Edge) (p : Point) : historyOk p.command (p.events e) = true := by
  unfold Point.events
  cases e.rst with
  | true => cases p <;> rfl
  | false =>
    cases p with
    | idle => cases e.cmdValid <;> rfl
    | busy => rfl
    | done => cases e.respReady <;> simp [historyOk]

theorem Point.command_afterTurn (c : CmdWord) (j : Nat) : (Point.afterTurn c j).command = some c := by
  rw [Point.afterTurn]
  split <;> rfl

/-- The events of a step leave the next point's command pending. -/
theorem pending_events (e : Edge) (p : Point) :
    (p.events e).foldl pendingAfter p.command = (p.after e).command := by
  unfold Point.events Point.after
  cases e.rst with
  | true => rfl
  | false =>
    cases p with
    | idle => cases e.cmdValid <;> rfl
    | busy c j =>
      cases e.engineTurn with
      | true => exact (Point.command_afterTurn c j).symm
      | false => rfl
    | done => cases e.respReady <;> rfl

/-! ### The invariant -/

/-- A variant's progress, counted by the steps taken of those it needs (R106). -/
theorem inFlight_iff {v : Variant} {n : Word} {s : State} :
    inFlight v n s ↔ ∃ j, progressAt v n j s ∧ j < stepsNeeded v n := by
  cases v with
  | scan => exact exists_congr fun j => and_comm.trans (and_congr_right' Nat.lt_succ_iff.symm)
  | lut => exact exists_congr fun j => and_comm.trans (and_congr_right' Nat.lt_succ_iff.symm)
  | par => exact exists_congr fun j => and_comm.trans (and_congr_right' Nat.lt_succ_iff.symm)
  | kern =>
    refine exists_congr fun j => ⟨fun h => ⟨h, ?_⟩, And.left⟩
    obtain ⟨-, -, w, -, hcount⟩ := h
    simp only [stepsNeeded]
    omega

/-- The elements fit a pending command exactly at the points whose command it is. -/
theorem fits_iff {s : State} {q : Option CmdWord} : fits s q ↔ ∃ p : Point, p.command = q ∧ StandsAt s p := by
  constructor
  · intro h
    cases hphase : s.phase <;> simp only [fits, hphase] at h
    case idle => exact ⟨.idle, h.symm, .idle hphase⟩
    case busy =>
      obtain ⟨c, rfl, hvar, hflight⟩ := h
      obtain ⟨j, hprogress, hwithin⟩ := inFlight_iff.1 hflight
      exact ⟨.busy c j, rfl, .busy ⟨hphase, by rw [hvar, variantCode_variantOf], hprogress, hwithin⟩⟩
    case done =>
      obtain ⟨c, rfl, hvar, hresult⟩ := h
      exact ⟨.done c, rfl, .done hphase hvar hresult⟩
  · rintro ⟨p, rfl, h⟩
    cases h with
    | idle hidle => simp [fits, hidle]
    | @busy c j hrun =>
      obtain ⟨hbusy, hvar, hprogress, hwithin⟩ := hrun
      rw [variantCode_variantOf] at hvar
      simp only [fits, hbusy]
      exact ⟨c, rfl, hvar, inFlight_iff.2 ⟨j, hprogress, hwithin⟩⟩
    | @done c hdone hvar hresult =>
      simp only [fits, hdone]
      exact ⟨c, rfl, hvar, hresult⟩

/-- The invariant, point by point. -/
theorem inv_iff {s : State} :
    Inv s ↔ historyOk none s.history = true ∧ ∃ p : Point, p.command = pending s.history ∧ StandsAt s p := by
  rw [Inv, fits_iff]

/-- From a state with the invariant the step goes on, and keeps it. -/
theorem step_of_inv {s : State} (h : Inv s) : ∃ t, step s = .next t ∧ Inv t := by
  obtain ⟨hok, p, hcommand, hstands⟩ := inv_iff.1 h
  obtain ⟨t, hstep, ht, -, hhistory⟩ := step_standsAt hstands
  refine ⟨t, hstep, inv_iff.2 ⟨?_, _, ?_, ht⟩⟩
  · rw [hhistory, historyOk_append, hok, ← pending, ← hcommand, historyOk_events]
    rfl
  · rw [hhistory, pending, List.foldl_append, ← pending, ← hcommand, pending_events]

/-- Settles O44: the step leads from point to point, and a step has one outcome. -/
theorem everyStepKeepsTheInvariant : Obligations.EveryStepKeepsTheInvariant := by
  intro s t hs hstep
  obtain ⟨u, hu, hinv⟩ := step_of_inv hs
  obtain rfl : u = t := by simpa [hu] using hstep
  exact hinv

/-- Settles O45: from every point the step goes on. -/
theorem theMachineNeverStops : Obligations.TheMachineNeverStops := by
  intro s hs
  obtain ⟨t, hstep, -⟩ := step_of_inv hs
  exact ⟨t, hstep⟩

/-- Settles O43: after RESET no command is pending and the engine is IDLE. -/
theorem invariantHoldsAtReset : Obligations.InvariantHoldsAtReset := ⟨rfl, rfl⟩

/-- R37: a command in flight has values in the elements its steps read. -/
theorem elements_of_progressAt {v : Variant} {n : Word} {j : Nat} {s : State} (h : progressAt v n j s) :
    s.work.isSome = true ∧ s.acc.isSome = true ∧ s.idx.isSome = true := by
  cases v with
  | scan =>
    obtain ⟨hidx, hwork, hacc⟩ := h
    simp [hidx, hwork, hacc]
  | kern =>
    obtain ⟨hidx, hacc, w, hwork, -⟩ := h
    simp [hidx, hwork, hacc]
  | lut =>
    obtain ⟨hidx, hwork, hacc⟩ := h
    simp [hidx, hwork, hacc]
  | par =>
    obtain ⟨hidx, hacc, w, hwork, -⟩ := h
    simp [hidx, hwork, hacc]

/-- Settles O46: what is read at each point holds a value there, and a step outside IDLE keeps `var`. -/
theorem elementsHoldValuesWhereRead : Obligations.ElementsHoldValuesWhereRead := by
  intro s hs
  obtain ⟨-, p, -, hstands⟩ := inv_iff.1 hs
  refine ⟨fun hbusy => ?_, fun hdone => ?_, fun t hdone hrst hstep => ?_⟩
  · cases hstands with
    | idle hidle => simp [hidle] at hbusy
    | busy hrun => exact ⟨by rw [hrun.var]; rfl, elements_of_progressAt hrun.progress⟩
    | done hdone => simp [hdone] at hbusy
  · cases hstands with
    | idle hidle => simp [hidle] at hdone
    | busy hrun => simp [hrun.busy] at hdone
    | done _ hvar hresult =>
      exact ⟨by rw [hvar]; rfl, _, hresult, (toNat_ofNat_popcount _).trans_le (popcount_le _)⟩
  · obtain ⟨hvar, -, -⟩ := step_outside_idle (by simp [hdone]) hrst hstep
    exact hvar

/-! ### Runs -/

/-- A run from a point goes on, and its events are right from that point on. -/
theorem runSteps_standsAt {s : State} {p : Point} (h : StandsAt s p) (k : Nat) :
    ∃ t events, runSteps k s = .next t ∧ t.history = s.history ++ events ∧ historyOk p.command events = true := by
  induction k generalizing s p with
  | zero => exact ⟨s, [], rfl, by simp, by simp [historyOk]⟩
  | succ k ih =>
    obtain ⟨t, hstep, ht, -, hhistory⟩ := step_standsAt h
    obtain ⟨u, events, hrun, hhistory', hok⟩ := ih ht
    refine ⟨u, p.events (edgeNow s) ++ events, (runSteps_of_step hstep k).trans hrun, ?_, ?_⟩
    · rw [hhistory', hhistory, List.append_assoc]
    · rw [historyOk_append, historyOk_events, pending_events, hok]
      rfl

/-- Settles O4: the reset edge leads to IDLE, whatever the state, and the run goes on from there. -/
theorem afterAnyResetEveryRunAnswersRightly : Obligations.AfterAnyResetEveryRunAnswersRightly := by
  intro s k hrst
  obtain ⟨t, hstep, hidle, -, -⟩ := stepsTo_reset hrst
  obtain ⟨u, events, hrun, hhistory, hok⟩ := runSteps_standsAt hidle k
  exact ⟨t, u, events, hstep, hrun, hhistory, hok⟩

/-- Two states at one point, with one history and the same coming edges, run together. -/
theorem runSteps_together {s s' : State} {p : Point} (h : StandsAt s p) (h' : StandsAt s' p)
    (hhistory : s.history = s'.history) (hedges : s.edges = s'.edges) (k : Nat) :
    ∃ t t' q, runSteps k s = .next t ∧ runSteps k s' = .next t' ∧ StandsAt t q ∧ StandsAt t' q ∧
      t.history = t'.history ∧ t.edges = t'.edges := by
  induction k generalizing s s' p with
  | zero => exact ⟨s, s', p, rfl, rfl, h, h', hhistory, hedges⟩
  | succ k ih =>
    obtain ⟨t, hstep, ht, hte, hth⟩ := step_standsAt h
    obtain ⟨t', hstep', ht', hte', hth'⟩ := step_standsAt h'
    have hnow : edgeNow s' = edgeNow s := by rw [edgeNow, edgeNow, hedges]
    rw [hnow] at ht' hth'
    rw [runSteps_of_step hstep, runSteps_of_step hstep']
    exact ih ht ht' (by rw [hth, hth', hhistory]) (by rw [hte, hte', hedges])

/-- Two states at one point show the same `resp_data`. -/
theorem respData_of_standsAt {s s' : State} {p : Point} (h : StandsAt s p) (h' : StandsAt s' p) (rst : Bool) :
    respData rst s = respData rst s' := by
  refine respData_congr (h.phase_eq.trans h'.phase_eq.symm) (fun hdone => ?_) rst
  cases h with
  | idle hidle => simp [hidle] at hdone
  | busy hrun => simp [hrun.busy] at hdone
  | done _ hvar hresult =>
    cases h' with
    | done _ hvar' hresult' => exact ⟨hvar.trans hvar'.symm, hresult.trans hresult'.symm⟩

/-- Settles O42: any two IDLE states stand at the same point, and run together from there. -/
theorem leftoverElementsAreNeverSeen : Obligations.LeftoverElementsAreNeverSeen := by
  intro s s' k hidle hidle' hhistory hedges
  obtain ⟨t, t', q, hrun, hrun', ht, ht', hh, he⟩ :=
    runSteps_together (.idle hidle) (.idle hidle') hhistory hedges k
  exact ⟨t, t', hrun, hrun', ht.phase_eq.trans ht'.phase_eq.symm, hh, he, respData_of_standsAt ht ht'⟩

/-! ### Liveness -/

/-- The most steps a command in flight can take: one for each listed edge and one for each iteration it has left. -/
def stepsLeft (s : State) (c : CmdWord) (j : Nat) : Nat :=
  s.edges.length + (stepsNeeded (variantOf (cmdVariant c)) (cmdOperand c) - j)

/-- Without a reset a step completes the command in flight or brings it nearer to its end: where the engine is not due,
a listed edge is used up. -/
theorem step_in_flight {s : State} {c : CmdWord} {j : Nat} (h : StandsAt s (.busy c j))
    (hrst : (edgeNow s).rst = false) :
    ∃ t, step s = .next t ∧ t.edges = s.edges.tail ∧ t.history = s.history ∧
      (StandsAt t (.done c) ∨ ∃ j', StandsAt t (.busy c j') ∧ stepsLeft t c j' < stepsLeft s c j) := by
  obtain ⟨t, hstep, ht, hedges, hhistory⟩ := step_standsAt h
  have hlength : t.edges.length = s.edges.length - 1 := by rw [hedges, List.length_tail]
  refine ⟨t, hstep, hedges, by simpa [Point.events, hrst] using hhistory, ?_⟩
  cases hturn : (edgeNow s).engineTurn with
  | true =>
    simp only [Point.after, hrst, hturn, Point.afterTurn, Bool.false_eq_true, if_false, if_true] at ht
    split at ht
    next hmore => exact .inr ⟨j + 1, ht, by rw [stepsLeft, stepsLeft]; omega⟩
    next => exact .inl ht
  | false =>
    have hlisted : s.edges ≠ [] := fun hnil => by simp [edgeNow_nil s hnil, quietEdge] at hturn
    have hpos := List.length_pos_iff.2 hlisted
    simp only [Point.after, hrst, hturn, Bool.false_eq_true, if_false] at ht
    exact .inr ⟨j, ht, by rw [stepsLeft, stepsLeft]; omega⟩

/-- Without a reset the command in flight is done within the steps it has left. -/
theorem runSteps_reaches_done (m : Nat) {s : State} {c : CmdWord} {j : Nat} (h : StandsAt s (.busy c j))
    (hrst : ∀ e ∈ s.edges, e.rst = false) (hm : stepsLeft s c j ≤ m) :
    ∃ k t, k ≤ m ∧ runSteps k s = .next t ∧ StandsAt t (.done c) ∧ t.history = s.history := by
  induction m generalizing s j with
  | zero =>
    cases h with
    | busy hrun =>
      have hwithin := hrun.within
      rw [stepsLeft] at hm
      omega
  | succ m ih =>
    have hnow : (edgeNow s).rst = false := by
      rcases edgeNow_mem_or_quiet s with hmem | ⟨-, hquiet⟩
      · exact hrst _ hmem
      · rw [hquiet]; rfl
    obtain ⟨t, hstep, hedges, hhistory, hdone | ⟨j', hbusy, hnearer⟩⟩ := step_in_flight h hnow
    · exact ⟨1, t, by omega, runSteps_of_step hstep 0, hdone, hhistory⟩
    · have hlater : ∀ e ∈ t.edges, e.rst = false := fun e he => hrst e (List.mem_of_mem_tail (hedges ▸ he))
      obtain ⟨k, u, hk, hrun, hdone, hhistory'⟩ := ih hbusy hlater (by omega)
      exact ⟨k + 1, u, by omega, (runSteps_of_step hstep k).trans hrun, hdone, hhistory'.trans hhistory⟩

/-- Settles O49: a BUSY state with the invariant stands at a point of the pending command, with at most 33 engine steps
to go. -/
theorem everyCommandIsAnswered : Obligations.EveryCommandIsAnswered := by
  intro s c hs hbusy hpending hrst
  obtain ⟨-, p, hcommand, hstands⟩ := inv_iff.1 hs
  have hphase := hstands.phase_eq.symm.trans hbusy
  cases p with
  | idle => cases hphase
  | done c' => cases hphase
  | busy c' j =>
    obtain rfl : c' = c := Option.some.inj (hcommand.trans hpending)
    have hmax := stepsNeeded_le (variantOf (cmdVariant c')) (cmdOperand c')
    have hbound : stepsLeft s c' j ≤ s.edges.length + 33 := by rw [stepsLeft]; omega
    obtain ⟨k, t, hk, hrun, hdone, hhistory⟩ := runSteps_reaches_done _ hstands hrst hbound
    cases hdone with
    | done hdone hvar hresult =>
      exact ⟨k, t, _, hk, hrun, hdone, hhistory, hvar, hresult, toNat_ofNat_popcount _⟩

end Sys2Proof.Machine
end

section
/-! PROOFS of the family `other`: where a PAR command stands after `j` stages (R192). -/

namespace Sys2Proof.Machine

/-- R192: a lane that counts its own bits is at most its width. -/
theorem lane_le_of_lanesCount {n w : Word} {j p : Nat} (h : lanesCount n j w) (hp : p < 32 / 2 ^ j) :
    lane w (2 ^ j) p ≤ 2 ^ j :=
  (h p hp).trans_le (bitCount_le n _ _)

/-- A count of at most 32 has its bits in the low 6. -/
theorem extract_of_toNat_eq_popcount {n w : Word} (h : w.toNat = popcount n) :
    w.extractLsb' 6 26 = 0#26 ∧ (w.extractLsb' 0 6).toNat = popcount n := by
  have hcount := popcount_le n
  constructor
  · apply BitVec.eq_of_toNat_eq
    rw [BitVec.extractLsb'_toNat, h, Nat.shiftRight_eq_div_pow, Nat.div_eq_of_lt (by omega)]
    rfl
  · rw [BitVec.extractLsb'_toNat, h, Nat.shiftRight_zero, Nat.mod_eq_of_lt (by omega)]

/-- Settles O38: the stages keep `parAt`, whose lanes count the operand's bits in their own place. -/
theorem parProgress : Obligations.ParProgress := by
  intro n s j hidle hj
  obtain ⟨t, u, hexec, hsteps, hrun⟩ := exec_running (.popcPar n) hidle (Nat.lt_succ_of_le hj)
  obtain ⟨hidx, hacc, w, hwork, hlanes⟩ : parAt n j u := hrun.progress
  refine ⟨t, u, w, hexec, hsteps, hrun.busy, hidx, hacc, hwork,
    fun p hp => ⟨hlanes p hp, lane_le_of_lanesCount hlanes hp⟩, ?_⟩
  rintro rfl
  exact extract_of_toNat_eq_popcount (toNat_of_lanesCount_five hlanes)

end Sys2Proof.Machine
end
